-- ==== Sys2Proof/Config.lean ====
section
/-! DEFINITION. The parameters of 00_scope.md rule R4, each a named constant from which every definition of the model
takes it. Two of them meet a shape that a number alone does not change (log entry 12): `CELL_BITS` meets the 8-bit
opcode patterns of R54 and the host's memory cell, `NFLAGS` the names LT, GT, EQ. The one open parameter, `MEM_INIT`, is
no constant: it is the argument of `Machine.State.resetWith` (decision D16, log entry 3).

R4's policies are one definition each: unknown opcode, skip: `Machine.execUnknown` (D7); memory bounds, fault:
`Machine.State.fetchInstr`, `Machine.State.stackRead`, `Machine.State.stackWrite`, by the access (D5); register index,
fault: `Machine.regOperand` (D6); CMP flags, sticky: `Machine.compareFlags` (D8). -/

namespace Sys2Proof.Config

/-- `NREGS`: the general registers R0..R7. -/
@[simp] abbrev nregs : Nat := 8

/-- `XLEN`: the width in bits of a general register (decision D1). -/
@[simp] abbrev xlen : Nat := 8

/-- `SP_INDEX`: the register `PUSH`, `POP`, `CALL` and `RET` use as the stack pointer (R13). -/
abbrev spIndex : Fin nregs := 7

/-- `RET_REG`: the register `RET` pops into (R14). -/
abbrev retReg : Fin nregs := 0

/-- `MEM_SIZE`: the memory cells; valid addresses are 0..254 (R19, decision D2). -/
@[simp] abbrev memSize : Nat := 255

/-- `CELL_BITS`: the width of a memory cell. -/
@[simp] abbrev cellBits : Nat := 8

/-- `PC_BITS`: the width of the program counter (decision D3). -/
@[simp] abbrev pcBits : Nat := 9

/-- `PC_RESET`: the program counter after reset (decision D4). -/
@[simp] abbrev pcReset : Nat := 0

/-- `NFLAGS`: the flags LT, GT, EQ. -/
@[simp] abbrev nflags : Nat := 3

/-- `MAX_ILEN`: the longest instruction length in bytes (R50). -/
@[simp] abbrev maxILen : Nat := 4

end Sys2Proof.Config
end

