-- ==== Sys2Proof/Word.lean ====
section
/-! DEFINITION. The word types, at the widths of Config.lean: a byte (memory cell, opcode or operand byte), a register
value and the program counter (00_scope.md rules R4, R5, R6). Every value is unsigned; `BitVec` addition, subtraction
and multiplication are the `mod 256` the rules write out. -/

namespace Sys2Proof

/-- A memory cell, an opcode byte or an operand byte: an unsigned integer in 0..255 (R6, R19). -/
abbrev Byte := BitVec Config.cellBits

/-- A register value: an unsigned integer in 0..255 (R6, R11). -/
abbrev RegWord := BitVec Config.xlen

/-- A program counter value: an unsigned integer in 0..511 (R6, R15). -/
abbrev PcWord := BitVec Config.pcBits

end Sys2Proof
end

