-- ==== Sys2Proof/Machine/State.lean ====
section
/-! DEFINITION. The state of the block (10_state.md rule R10: seven items "and nothing else"), the five fault causes,
the refusals of host operations, and the state right after reset. -/

namespace Sys2Proof.Machine

/-- Memory as a list of (address, byte) pairs in one canonical form (`Memory.wf` in Machine/Ops.lean). -/
abbrev Memory := List Host.Cell

/-- The three flags, separate bits with no position in a byte (R16, decision D23). -/
structure Flags where
  /-- `LT`: some `CMP` found its first register below its second. -/
  lt : Bool
  /-- `GT`: some `CMP` found its first register above its second. -/
  gt : Bool
  /-- `EQ`: some `CMP` found its registers equal. -/
  eq : Bool
deriving DecidableEq, Repr

/-- The flags as `NFLAGS` bits, in R4's order LT, GT, EQ. -/
def Flags.bits (f : Flags) : Vector Bool Config.nflags := #v[f.lt, f.gt, f.eq]

/-- The five fault causes, "all the synchronous faults of the machine" (60_exceptions.md rule R142). A fault is TAKEN:
the step that meets one answers a next state with the cause latched in `State.fault` and `State.run` cleared (R141), so
no step of this model ends in `Host.Outcome.fault` (log entry 1). Each is the spec's own treatment of a case its source
leaves undefined (decisions D5, D6, D13); each is safe, since the machine stops where the source might go on. -/
inductive Fault where
  /-- Code 1. Raised by the opcode fetch of any step whose `pc` is 255 or more; info is `pc`. Safe. -/
  | fetchBounds
  /-- Code 2. Raised by the operand fetch of a known opcode at an address of 255 or more; info is that address. Safe. -/
  | operandBounds
  /-- Code 3. Raised by `LDI`, `PRN`, `MUL`, `CMP`, `PUSH`, `POP`, `CALL`, `JMP`, `JEQ` and `JNE` on a register operand
  byte above 7; info is the byte. Safe. -/
  | regIndex
  /-- Code 4. Raised by `POP` and `RET` when R7 is 255; info is 255. Safe. -/
  | stackReadBounds
  /-- Code 5. Raised by `PUSH` and `CALL` when R7 is 0, so that the decremented R7 is 255; info is 255. Safe. -/
  | stackWriteBounds
deriving DecidableEq, Repr

/-- What the fault latch holds when it is set: the pair (code, info) (R18). -/
structure FaultRecord where
  code : Fault
  /-- The offending number: an address, or an operand byte (R142). -/
  info : Nat
deriving DecidableEq, Repr

/-- Why an operation has no meaning in this model. No instruction ends in one of these: each is a host operation whose
arguments or moment the spec gives no meaning ("refused by the spec", 50_host_interface.md rules R131, R133, R136). -/
inductive Refusal where
  /-- Raised by no arm of `exec`: every instruction has its meaning. -/
  | notModelled (mnemonic : String)
  /-- A host operation other than reset while `RUN = 1` (R136). Safe. -/
  | hostWhileRunning
  /-- `ramRead` or `ramWrite` at an address outside 0..254 (R133). Safe. -/
  | hostAddressOutOfRange
  /-- `ramWrite` or `load` of a value outside 0..255 (R131, R133). Safe. -/
  | hostValueOutOfRange
  /-- `load` of a program longer than 255 bytes (R131). Safe. -/
  | hostProgramTooLong
deriving DecidableEq, Repr

/-- The complete state of the block (R10). -/
structure State where
  /-- `x[0..7]`: eight 8-bit registers, R7 the stack pointer by convention (R11, R13). -/
  regs : Vector RegWord Config.nregs
  /-- The program counter, nine bits (R15). -/
  pc : PcWord
  /-- LT, GT, EQ (R16). -/
  flags : Flags
  /-- `RUN`: the engine steps only while it is set (R17). -/
  run : Bool
  /-- `FAULT`: `none`, or the latched (code, info) (R18). -/
  fault : Option FaultRecord
  /-- `mem[0..254]` (R19). -/
  mem : Memory
  /-- `OUT`: the values `PRN` has emitted since reset, oldest first (R20). -/
  out : List RegWord
deriving DecidableEq, Repr

/-- The machine right after reset (R22, R160), with the image of zeros for the open parameter `MEM_INIT`: nothing listed
(log entry 3; `State.resetWith` takes any image). -/
def State.reset : State where
  regs := Vector.replicate Config.nregs 0
  pc := BitVec.ofNat Config.pcBits Config.pcReset
  flags := { lt := false, gt := false, eq := false }
  run := false
  fault := none
  mem := []
  out := []

/-- The three outcomes of a step of this machine. -/
abbrev Result := Host.Outcome State Fault Refusal

end Sys2Proof.Machine
end

