-- ==== Sys2Proof/Machine/Ops.lean ====
section
/-! DEFINITION. The named operations over memory and registers, the primitives of 00_scope.md rule R7, and taking a
fault as one shared operation (R8). -/

namespace Sys2Proof.Machine

/-- `zext_9(v)`: a register value widened to the program counter's width with zero high bits (R6). -/
def zext9 (v : RegWord) : PcWord := v.setWidth Config.pcBits

/-- A byte as a register value: the value itself, since a register is as wide as a cell (R4, decision D1). -/
def regOfByte (v : Byte) : RegWord := v.setWidth Config.xlen

/-- A register value as a byte: the value itself (R4, R31: "A register (8 bits) fits one cell"). -/
def byteOfReg (v : RegWord) : Byte := v.setWidth Config.cellBits

/-! ### Memory -/

/-- What an address that is not listed reads as: 0, the named premise "unloaded cells are 0" of decision D16 (log entry
3, DESIGN CHOICE). Any other content is listed. -/
def memFill : Byte := 0

/-- The byte at an address (20_memory.md rule R37: the last write to the cell, or its initial value). -/
def Memory.read : Memory → Nat → Byte
  | [], _ => memFill
  | (k, v) :: rest, a => if a = k then v else Memory.read rest a

/-- A cell in front of a memory, left out when it holds what an unlisted address reads as. -/
def Memory.cons (a : Nat) (v : Byte) (rest : Memory) : Memory :=
  if v = memFill then rest else (a, v) :: rest

/-- Writes one byte and keeps the canonical form (R37: "a write changes that one cell only"). -/
def Memory.write : Memory → Nat → Byte → Memory
  | [], a, v => Memory.cons a v []
  | (k, w) :: rest, a, v =>
    if a < k then Memory.cons a v ((k, w) :: rest)
    else if a = k then Memory.cons a v rest
    else (k, w) :: Memory.write rest a v

/-- Addresses strictly rising from `lo`, below `MEM_SIZE`, and no cell that holds what an unlisted address reads as. -/
def Memory.wfFrom : Nat → Memory → Bool
  | _, [] => true
  | lo, (k, v) :: rest => decide (lo ≤ k) && decide (k < Config.memSize) && decide (v ≠ memFill) && Memory.wfFrom (k + 1) rest

/-- The canonical form of a memory: equal memories are equal lists. -/
def Memory.wf (m : Memory) : Bool := Memory.wfFrom 0 m

/-- Writes bytes at ascending addresses from `a`; those past the end of memory are dropped. -/
def Memory.writeBytes (m : Memory) (a : Nat) : List Byte → Memory
  | [] => m
  | v :: rest => Memory.writeBytes (if a < Config.memSize then m.write a v else m) (a + 1) rest

/-- The bytes at `a`, `a + 1`, …, at most `n` of them and none past the end of memory. -/
def Memory.bytesFrom (m : Memory) (a : Nat) : Nat → List Byte
  | 0 => []
  | n + 1 => if a < Config.memSize then m.read a :: Memory.bytesFrom m (a + 1) n else []

/-! ### Registers, flags and the rest of the state -/

/-- `x[i]` (R7, R11). -/
def State.reg (s : State) (i : Fin Config.nregs) : RegWord := s.regs[i]

/-- `x[i] <- v` (R7, R11). -/
def State.setReg (s : State) (i : Fin Config.nregs) (v : RegWord) : State := { s with regs := s.regs.set i v }

/-- `pc <- t` (R7). -/
def State.setPc (s : State) (t : PcWord) : State := { s with pc := t }

/-- The generic advance `pc <- pc + length`, in nine bits (40_engine_cycle.md rule R74, log entry 7). -/
def State.advance (s : State) (length : Nat) : State := s.setPc (s.pc + BitVec.ofNat Config.pcBits length)

/-- A write of the flags. -/
def State.setFlags (s : State) (f : Flags) : State := { s with flags := f }

/-- `RUN <- b`. -/
def State.setRun (s : State) (b : Bool) : State := { s with run := b }

/-- A write of the memory array. -/
def State.setMem (s : State) (m : Memory) : State := { s with mem := m }

/-- `Out(v)`: appends `v` to the output sequence (R7, R20). -/
def State.emit (s : State) (v : RegWord) : State := { s with out := s.out ++ [v] }

/-! ### Faults -/

/-- A computation that may raise a fault. -/
abbrev Attempt := Except FaultRecord

/-- `FAULT <- (code, info)` and `RUN <- 0`, nothing else (R8; 60_exceptions.md rules R141, R144). There is no return
from it: only a host reset clears the latch (R146, R160). -/
def takeFault (f : FaultRecord) (s : State) : State := { s with fault := some f, run := false }

/-- Ends an instruction begun in state `s`: its new state, or, if it raised a fault, `s` with the fault taken, so that
none of the instruction's writes take effect (R8, R144). -/
def conclude (s : State) (r : Attempt State) : Result :=
  match r with
  | .ok t => .next t
  | .error f => .next (takeFault f s)

/-! ### The stack accesses (R7, R30, R35, R100) -/

/-- `MemRead(addr, 1)`: `Fault(4, addr)` if `addr >= MEM_SIZE` (R7). -/
def State.stackRead (s : State) (addr : RegWord) : Attempt Byte :=
  if addr.toNat < Config.memSize then .ok (s.mem.read addr.toNat)
  else .error { code := .stackReadBounds, info := addr.toNat }

/-- `MemWrite(addr, 1, v)`: `Fault(5, addr)` if `addr >= MEM_SIZE` (R7). -/
def State.stackWrite (s : State) (addr : RegWord) (v : Byte) : Attempt State :=
  if addr.toNat < Config.memSize then .ok (s.setMem (s.mem.write addr.toNat v))
  else .error { code := .stackWriteBounds, info := addr.toNat }

/-- The address a push stores to: `(x[7] - 1) mod 256` (R35, R100). -/
def State.pushAddr (s : State) : RegWord := s.reg Config.spIndex - 1#(Config.xlen)

/-- The address a pop reads: `x[7]` (R35, R100). -/
def State.popAddr (s : State) : RegWord := s.reg Config.spIndex

/-- `SP -= 1` (R100). -/
def State.decSp (s : State) : State := s.setReg Config.spIndex s.pushAddr

/-- `SP += 1` (R100). -/
def State.incSp (s : State) : State := s.setReg Config.spIndex (s.reg Config.spIndex + 1#(Config.xlen))

/-! ### Reset -/

/-- The memory that holds an image from address 0. -/
def Memory.ofImage (image : List Byte) : Memory := Memory.writeBytes [] 0 image

/-- The machine right after reset, for a content of memory `MEM_INIT` (10_state.md rule R22, decision D16). -/
def State.resetWith (memInit : Vector Byte Config.memSize) : State := State.reset.setMem (Memory.ofImage memInit.toList)

end Sys2Proof.Machine
end

