-- ==== Sys2Proof/Machine/Operands.lean ====
section
/-! DEFINITION. The two operand kinds (30_encoding.md rule R53). -/

namespace Sys2Proof.Machine

/-- `reg(b)`: the whole byte is the register index; a value above 7 raises `Fault(3, b)` (00_scope.md rule R7, R53). -/
def regOperand (b : Byte) : Attempt (Fin Config.nregs) :=
  if h : b.toNat < Config.nregs then .ok ⟨b.toNat, h⟩
  else .error { code := .regIndex, info := b.toNat }

/-- An immediate: the whole byte is the value, unchanged (R53). -/
def immOperand (b : Byte) : RegWord := regOfByte b

end Sys2Proof.Machine
end

