-- ==== Sys2Proof/Machine/ControlFlow.lean ====
section
/-! DEFINITION. `JMP`, `JEQ`, `JNE`, `CALL` and `RET`, the PC-setters (43_control_flow.md rules R110 to R118). -/

namespace Sys2Proof.Machine

/-- `pc <- zext_9(v)`: an absolute target from a register, not checked when it is written (R110). -/
def State.jump (s : State) (v : RegWord) : State := s.setPc (zext9 v)

/-- `JMP Rn`: `pc <- zext_9(x[n])` (R111). -/
def execJmp (op1 : Byte) (s : State) : Result :=
  conclude s do
    let n ← regOperand op1
    pure (s.jump (s.reg n))

/-- `JEQ Rn`: jumps if EQ is set, else `pc + 2`; the operand is checked on both paths (R112, decision D15). -/
def execJeq (op1 : Byte) (s : State) : Result :=
  conclude s do
    let n ← regOperand op1
    pure (if s.flags.eq then s.jump (s.reg n) else s.advance 2)

/-- `JNE Rn`: jumps if EQ is clear, else `pc + 2`; the operand is checked on both paths (R113, decision D15). -/
def execJne (op1 : Byte) (s : State) : Result :=
  conclude s do
    let n ← regOperand op1
    pure (if s.flags.eq then s.advance 2 else s.jump (s.reg n))

/-- The return address `pc + 2` as the byte `CALL` pushes. It fits: the operand fetch at `pc + 1` succeeded, so
`pc + 2 <= 255` (R114, log entry 7). -/
def State.returnAddr (s : State) : Byte := (s.pc + 2#(Config.pcBits)).setWidth Config.cellBits

/-- `CALL Rn`: pushes `pc + 2`, then jumps to `x[n]`, read after the stack pointer's update (R114, decision D19). -/
def execCall (op1 : Byte) (s : State) : Result :=
  conclude s do
    let n ← regOperand op1
    let t := s.decSp
    let u ← t.stackWrite s.pushAddr s.returnAddr
    pure (u.jump (u.reg n))

/-- `RET`: pops into R0 and takes `pc` from R0 (R14, R115, decision D11). -/
def execRet (s : State) : Result :=
  conclude s do
    let v ← s.stackRead s.popAddr
    let t := (s.setReg Config.retReg (regOfByte v)).incSp
    pure (t.jump (t.reg Config.retReg))

end Sys2Proof.Machine
end

