-- ==== Sys2Proof/Machine/Flags.lean ====
section
/-! DEFINITION. The one flag computation of the machine: `CMP` (41_data_compare.md rules R93, R95). -/

namespace Sys2Proof.Machine

/-- The flags after comparing `a` with `b`, unsigned: the one the relation names is set, the other two are left as they
were (R93, decisions D8, D9, D10). -/
def compareFlags (a b : RegWord) (f : Flags) : Flags :=
  if a = b then { f with eq := true }
  else if a < b then { f with lt := true }
  else { f with gt := true }

end Sys2Proof.Machine
end

