-- ==== Sys2Proof/Machine/DataCompare.lean ====
section
/-! DEFINITION. `LDI`, `PRN`, `MUL` and `CMP` (41_data_compare.md rules R90 to R95). -/

namespace Sys2Proof.Machine

/-- `LDI Rn, imm`: `x[n] <- op2` (R90). -/
def execLdi (op1 op2 : Byte) (s : State) : Result :=
  conclude s do
    let n ← regOperand op1
    pure ((s.setReg n (immOperand op2)).advance 3)

/-- `PRN Rn`: `Out(x[n])` (R91). -/
def execPrn (op1 : Byte) (s : State) : Result :=
  conclude s do
    let n ← regOperand op1
    pure ((s.emit (s.reg n)).advance 2)

/-- `MUL Ra, Rb`: `x[a] <- (x[a] * x[b]) mod 256`; no flag is written (R92, R94). -/
def execMul (op1 op2 : Byte) (s : State) : Result :=
  conclude s do
    let a ← regOperand op1
    let b ← regOperand op2
    pure ((s.setReg a (s.reg a * s.reg b)).advance 3)

/-- `CMP Ra, Rb`: sets one flag and clears none (R93, R95). -/
def execCmp (op1 op2 : Byte) (s : State) : Result :=
  conclude s do
    let a ← regOperand op1
    let b ← regOperand op2
    pure ((s.setFlags (compareFlags (s.reg a) (s.reg b) s.flags)).advance 3)

end Sys2Proof.Machine
end

