-- ==== Sys2Proof/Syntax.lean ====
section
/-! DEFINITION. The instructions: one constructor per row of spec/opcode_table.json, in its order. -/

namespace Sys2Proof

/-- An instruction with its operand bytes as they stand in memory. A register operand is the WHOLE byte (30_encoding.md
rule R53): a byte above 7 is an operand like any other, whose instruction raises `Fault(3, byte)` when it executes
(log entry 5). -/
inductive Instr where
  /-- `HLT` (R75) -/
  | hlt
  /-- `LDI Rn, imm` (R90) -/
  | ldi (op1 op2 : Byte)
  /-- `PRN Rn` (R91) -/
  | prn (op1 : Byte)
  /-- `MUL Ra, Rb` (R92) -/
  | mul (op1 op2 : Byte)
  /-- `PUSH Rn` (R101) -/
  | push (op1 : Byte)
  /-- `POP Rn` (R102) -/
  | pop (op1 : Byte)
  /-- `CALL Rn` (R114) -/
  | call (op1 : Byte)
  /-- `RET` (R115) -/
  | ret
  /-- `JMP Rn` (R111) -/
  | jmp (op1 : Byte)
  /-- `JEQ Rn` (R112) -/
  | jeq (op1 : Byte)
  /-- `JNE Rn` (R113) -/
  | jne (op1 : Byte)
  /-- `CMP Ra, Rb` (R93) -/
  | cmp (op1 op2 : Byte)
  /-- Any opcode byte that is not one of the twelve: the no-op of R55 and R76. The bytes it skips are no operands. -/
  | unknown (opcode : Byte)
deriving DecidableEq, Repr

end Sys2Proof
end

