-- ==== Sys2Proof/WellFormed.lean ====
section
/-! DEFINITION. Which instruction terms stand for instructions: `Instr.wf`, what the encoding can express, and
`Instr.registersLegal`, the terms whose register operands all name a register (30_encoding.md rules R51, R53, R54). -/

namespace Sys2Proof

/-- The twelve opcode bytes of the opcode table, in its order (R54). -/
def knownOpcodes : List Byte :=
  [0x01#8, 0x82#8, 0x47#8, 0xA2#8, 0x45#8, 0x46#8, 0x50#8, 0x11#8, 0x54#8, 0x55#8, 0x56#8, 0xA7#8]

/-- "Known opcode: one of the twelve byte values of the opcode table" (00_scope.md section 5). -/
def isKnown (opcode : Byte) : Bool := knownOpcodes.contains opcode

/-- An instruction the encoding can express. Every operand byte is possible; `unknown` carries a byte that is none of
the twelve (R55). -/
def Instr.wf : Instr → Bool
  | .hlt => true
  | .ldi _ _ => true
  | .prn _ => true
  | .mul _ _ => true
  | .push _ => true
  | .pop _ => true
  | .call _ => true
  | .ret => true
  | .jmp _ => true
  | .jeq _ => true
  | .jne _ => true
  | .cmp _ _ => true
  | .unknown opcode => !isKnown opcode

/-- "legal values 0..7" of a register operand (R51). -/
def legalRegister (b : Byte) : Bool := b.toNat < Config.nregs

/-- Every register operand names one of R0..R7, so the instruction raises no `Fault(3, _)` (R53). -/
def Instr.registersLegal : Instr → Bool
  | .hlt => true
  | .ldi op1 _ => legalRegister op1
  | .prn op1 => legalRegister op1
  | .mul op1 op2 => legalRegister op1 && legalRegister op2
  | .push op1 => legalRegister op1
  | .pop op1 => legalRegister op1
  | .call op1 => legalRegister op1
  | .ret => true
  | .jmp op1 => legalRegister op1
  | .jeq op1 => legalRegister op1
  | .jne op1 => legalRegister op1
  | .cmp op1 op2 => legalRegister op1 && legalRegister op2
  | .unknown _ => true

end Sys2Proof
end

