-- ==== Sys2Proof/Decode.lean ====
section
/-! DEFINITION. Decoding and encoding (30_encoding.md): `decode`, total on any bytes, and after it `encode`. -/

namespace Sys2Proof

/-- "total instruction length = ((opcode >> 6) & 0b11) + 1", for every opcode byte (R50, R72). -/
def opcodeLength (opcode : Byte) : Nat := ((opcode >>> 6) &&& 0b11#8).toNat + 1

/-- The PC-setter set {`CALL`, `RET`, `JMP`, `JEQ`, `JNE`}, by exact match of the opcode byte (R56). -/
def pcSetters : List Byte := [0x50#8, 0x11#8, 0x54#8, 0x55#8, 0x56#8]

/-- Whether a byte is a PC-setter; every other byte value receives the generic advance (R56). -/
def isPcSetter (opcode : Byte) : Bool := pcSetters.contains opcode

/-- What decoding lacks when the bytes end too early. Decoding fails in no other way: every byte value is an opcode
(R57). -/
inductive DecodeError where
  /-- There is no opcode byte. -/
  | noOpcode
  /-- The first operand byte of a known opcode is missing. -/
  | noOperand1
  /-- The second operand byte of a known opcode is missing. -/
  | noOperand2
deriving DecidableEq, Repr

/-- Formats Z: no operand byte follows (R51). -/
def decodeZ (i : Instr) (rest : List Byte) : Except DecodeError (Instr × List Byte) := .ok (i, rest)

/-- Format R: one operand byte follows (R51). -/
def decodeR (mk : Byte → Instr) : List Byte → Except DecodeError (Instr × List Byte)
  | op1 :: rest => .ok (mk op1, rest)
  | [] => .error .noOperand1

/-- Formats RR and RI: two operand bytes follow, the first written operand first (R51, R59). -/
def decodeRR (mk : Byte → Byte → Instr) : List Byte → Except DecodeError (Instr × List Byte)
  | op1 :: op2 :: rest => .ok (mk op1 op2, rest)
  | [_] => .error .noOperand2
  | [] => .error .noOperand1

/-- The exact match of the opcode byte against the twelve rows of R54; on no match the no-op of R55, which takes no
operand byte. -/
def decodeOpcode (opcode : Byte) (rest : List Byte) : Except DecodeError (Instr × List Byte) :=
  if opcode = 0b00000001#8 then decodeZ .hlt rest
  else if opcode = 0b10000010#8 then decodeRR .ldi rest
  else if opcode = 0b01000111#8 then decodeR .prn rest
  else if opcode = 0b10100010#8 then decodeRR .mul rest
  else if opcode = 0b01000101#8 then decodeR .push rest
  else if opcode = 0b01000110#8 then decodeR .pop rest
  else if opcode = 0b01010000#8 then decodeR .call rest
  else if opcode = 0b00010001#8 then decodeZ .ret rest
  else if opcode = 0b01010100#8 then decodeR .jmp rest
  else if opcode = 0b01010101#8 then decodeR .jeq rest
  else if opcode = 0b01010110#8 then decodeR .jne rest
  else if opcode = 0b10100111#8 then decodeRR .cmp rest
  else decodeZ (.unknown opcode) rest

/-- The instruction at the head of a list of bytes in ascending address order, opcode first (R32, R57), with the bytes
it did not take. The bytes an unknown opcode skips are not read, so they stay in the rest (R55). -/
def decode : List Byte → Except DecodeError (Instr × List Byte)
  | [] => .error .noOpcode
  | opcode :: rest => decodeOpcode opcode rest

/-- The opcode byte of an instruction (R54; for an unknown opcode its own byte, R55). -/
def Instr.opcode : Instr → Byte
  | .hlt => 0x01#8
  | .ldi _ _ => 0x82#8
  | .prn _ => 0x47#8
  | .mul _ _ => 0xA2#8
  | .push _ => 0x45#8
  | .pop _ => 0x46#8
  | .call _ => 0x50#8
  | .ret => 0x11#8
  | .jmp _ => 0x54#8
  | .jeq _ => 0x55#8
  | .jne _ => 0x56#8
  | .cmp _ _ => 0xA7#8
  | .unknown opcode => opcode

/-- The operand bytes of an instruction in ascending address order (R51). -/
def Instr.operands : Instr → List Byte
  | .hlt => []
  | .ldi op1 op2 => [op1, op2]
  | .prn op1 => [op1]
  | .mul op1 op2 => [op1, op2]
  | .push op1 => [op1]
  | .pop op1 => [op1]
  | .call op1 => [op1]
  | .ret => []
  | .jmp op1 => [op1]
  | .jeq op1 => [op1]
  | .jne op1 => [op1]
  | .cmp op1 op2 => [op1, op2]
  | .unknown _ => []

/-- The bytes of an instruction at ascending addresses, opcode first (R32, R51). The bytes an unknown opcode skips are
not part of it: they may hold anything (R55, log entry 6). -/
def encode (i : Instr) : List Byte := i.opcode :: i.operands

/-- The low `n` bytes of a number, least significant first: an instruction's bytes in ascending address order when its
bits are numbered as spec/opcode_table.json numbers them (bit 0 is the least significant bit of the first byte). -/
def bytesOfNat : Nat → Nat → List Byte
  | 0, _ => []
  | n + 1, w => BitVec.ofNat Config.cellBits w :: bytesOfNat n (w / 2 ^ Config.cellBits)

/-- The bytes of an opcode-table word of `nbits` bits: the bits above `nbits` are 0, up to `MAX_ILEN` bytes. -/
def tableWordBytes (nbits w : Nat) : List Byte := bytesOfNat Config.maxILen (w % 2 ^ nbits)

/-- The instruction the decoder reads from an opcode-table word. -/
def decodeTableWord (nbits w : Nat) : Option Instr :=
  match decode (tableWordBytes nbits w) with
  | .ok (i, _) => some i
  | .error _ => none

end Sys2Proof
end

