-- ==== Sys2Proof/Machine/Engine.lean ====
section
/-! DEFINITION. `HLT` and the unknown opcodes (40_engine_cycle.md rules R75, R76). -/

namespace Sys2Proof.Machine

/-- `HLT`: `RUN <- 0; pc <- pc + 1` (R75). -/
def execHlt (s : State) : Result := .next ((s.setRun false).advance 1)

/-- An unknown opcode: no operation but the generic advance by its length (R55, R76). -/
def execUnknown (opcode : Byte) (s : State) : Result := .next (s.advance (opcodeLength opcode))

end Sys2Proof.Machine
end

