-- ==== Sys2Proof/Machine/Stack.lean ====
section
/-! DEFINITION. `PUSH` and `POP` (42_stack.md rules R100 to R102). -/

namespace Sys2Proof.Machine

/-- `PUSH Rn`: the stack pointer is updated first, so `PUSH R7` stores the decremented value (R101, decision D19). -/
def execPush (op1 : Byte) (s : State) : Result :=
  conclude s do
    let n ← regOperand op1
    let t := s.decSp
    let u ← t.stackWrite s.pushAddr (byteOfReg (t.reg n))
    pure (u.advance 2)

/-- `POP Rn`: the register is written first, so `POP R7` ends with the popped value plus one (R102, decision D19). -/
def execPop (op1 : Byte) (s : State) : Result :=
  conclude s do
    let n ← regOperand op1
    let v ← s.stackRead s.popAddr
    pure ((s.setReg n (regOfByte v)).incSp.advance 2)

end Sys2Proof.Machine
end

