-- ==== Sys2Proof/Machine/Dispatch.lean ====
section
/-! DEFINITION. The dispatcher (40_engine_cycle.md rule R73): one meaning per instruction. -/

namespace Sys2Proof.Machine

/-- What an instruction does in a state, its `pc` update included (00_scope.md rule R9). -/
def exec (i : Instr) (s : State) : Host.Outcome State Fault Refusal :=
  match i with
  | .hlt => Sys2Proof.Machine.execHlt s
  | .ldi op1 op2 => Sys2Proof.Machine.execLdi op1 op2 s
  | .prn op1 => Sys2Proof.Machine.execPrn op1 s
  | .mul op1 op2 => Sys2Proof.Machine.execMul op1 op2 s
  | .push op1 => Sys2Proof.Machine.execPush op1 s
  | .pop op1 => Sys2Proof.Machine.execPop op1 s
  | .call op1 => Sys2Proof.Machine.execCall op1 s
  | .ret => Sys2Proof.Machine.execRet s
  | .jmp op1 => Sys2Proof.Machine.execJmp op1 s
  | .jeq op1 => Sys2Proof.Machine.execJeq op1 s
  | .jne op1 => Sys2Proof.Machine.execJne op1 s
  | .cmp op1 op2 => Sys2Proof.Machine.execCmp op1 op2 s
  | .unknown opcode => Sys2Proof.Machine.execUnknown opcode s

end Sys2Proof.Machine
end

