-- ==== Sys2Proof/Machine/Fetch.lean ====
section
/-! DEFINITION. Fetching an instruction (00_scope.md rule R7; 40_engine_cycle.md rule R71). -/

namespace Sys2Proof.Machine

/-- `FetchOpcode()`: `Fault(1, pc)` if `pc >= MEM_SIZE` (R7). -/
def State.fetchOpcode (s : State) : Attempt Byte :=
  if s.pc.toNat < Config.memSize then .ok (s.mem.read s.pc.toNat)
  else .error { code := .fetchBounds, info := s.pc.toNat }

/-- `FetchOperand(k)`: `Fault(2, pc + k)` if `pc + k >= MEM_SIZE`; the sum does not wrap (R7, R35). -/
def State.fetchOperand (s : State) (k : Nat) : Attempt Byte :=
  if s.pc.toNat + k < Config.memSize then .ok (s.mem.read (s.pc.toNat + k))
  else .error { code := .operandBounds, info := s.pc.toNat + k }

/-- The bytes at `pc` and after it that exist, as many as the longest instruction has. A read has no side effect (R37),
so handing the decoder bytes it does not take changes nothing. -/
def State.fetchBytes (s : State) : List Byte := s.mem.bytesFrom s.pc.toNat Config.maxILen

/-- The instruction at `pc`. A byte the decoder lacks lies past the end of memory: a missing opcode is `Fault(1, pc)`, a
missing operand `k` is `Fault(2, pc + k)` (R71, R142, R143). -/
def State.fetchInstr (s : State) : Attempt Instr :=
  match decode s.fetchBytes with
  | .ok (i, _) => .ok i
  | .error .noOpcode => .error { code := .fetchBounds, info := s.pc.toNat }
  | .error .noOperand1 => .error { code := .operandBounds, info := s.pc.toNat + 1 }
  | .error .noOperand2 => .error { code := .operandBounds, info := s.pc.toNat + 2 }

end Sys2Proof.Machine
end

