-- ==== Sys2Proof/Machine/Step.lean ====
section
/-! DEFINITION. One step of the engine (40_engine_cycle.md rules R70, R71). -/

namespace Sys2Proof.Machine

/-- One step: with `RUN = 1` the instruction at `pc` is fetched and executed, or the fetch's fault is taken; with
`RUN = 0` the engine does nothing and the state stays as it is (R70, log entry 2). -/
def step (s : State) : Host.Outcome State Fault Refusal :=
  if s.run then
    match s.fetchInstr with
    | .ok i => exec i s
    | .error f => .next (takeFault f s)
  else .next s

/-- `s` with an instruction of the opcode table placed where the next step fetches, and running: what the host's `load`
and `run` do for one instruction (log entry 8). -/
def State.withFetchWord (s : State) (nbits w : Nat) : State :=
  (s.setMem (s.mem.writeBytes s.pc.toNat (tableWordBytes nbits w))).setRun true

end Sys2Proof.Machine
end

