-- ==== Sys2Proof/Machine/Loop.lean ====
section
/-! DEFINITION. The execution loop in the document's own two stages, line by line as 40_engine_cycle.md rule R71 writes
it: fetch the opcode, fetch operands by its top two bits, run the behaviour of the opcode table's "Effect" cell, then
the generic advance unless the opcode is a PC-setter. It uses neither the decoder nor the per-instruction meanings of
`exec`: rule R74 says the two forms are the same function, and the claim that they are compares `step` with this. -/

namespace Sys2Proof.Machine

/-- `SP -= 1; memory[reg[SP]] = v` for a value read after the decrement (42_stack.md rule R100). -/
def State.push (s : State) (value : State → Byte) : Attempt State :=
  let t := s.setReg Config.spIndex (s.reg Config.spIndex - 1#(Config.xlen))
  t.stackWrite (t.reg Config.spIndex) (value t)

/-- The behaviour of an opcode, without the generic advance: the "Effect" column of the opcode table (R71, R73). -/
def behaviour (opc op1 op2 : Byte) (s : State) : Attempt State :=
  if opc = 0x01#8 then pure (s.setRun false)
  else if opc = 0x11#8 then do
    let v ← s.stackRead (s.reg Config.spIndex)
    let t := s.setReg Config.retReg (regOfByte v)
    let u := t.setReg Config.spIndex (t.reg Config.spIndex + 1#(Config.xlen))
    pure (u.setPc (zext9 (u.reg Config.retReg)))
  else do
    let a ← regOperand op1
    if opc = 0x82#8 then pure (s.setReg a (regOfByte op2))
    else if opc = 0x47#8 then pure (s.emit (s.reg a))
    else if opc = 0x45#8 then s.push (fun t => byteOfReg (t.reg a))
    else if opc = 0x46#8 then do
      let v ← s.stackRead (s.reg Config.spIndex)
      let t := s.setReg a (regOfByte v)
      pure (t.setReg Config.spIndex (t.reg Config.spIndex + 1#(Config.xlen)))
    else if opc = 0x50#8 then do
      let t ← s.push (fun t => (t.pc + 2#(Config.pcBits)).setWidth Config.cellBits)
      pure (t.setPc (zext9 (t.reg a)))
    else if opc = 0x54#8 then pure (s.setPc (zext9 (s.reg a)))
    else if opc = 0x55#8 then pure (s.setPc (if s.flags.eq then zext9 (s.reg a) else s.pc + 2#(Config.pcBits)))
    else if opc = 0x56#8 then pure (s.setPc (if !s.flags.eq then zext9 (s.reg a) else s.pc + 2#(Config.pcBits)))
    else do
      let b ← regOperand op2
      if opc = 0xA2#8 then pure (s.setReg a (BitVec.ofNat Config.xlen ((s.reg a).toNat * (s.reg b).toNat)))
      else pure (s.setFlags
        { lt := s.flags.lt || decide ((s.reg a).toNat < (s.reg b).toNat)
          gt := s.flags.gt || decide ((s.reg b).toNat < (s.reg a).toNat)
          eq := s.flags.eq || decide ((s.reg a).toNat = (s.reg b).toNat) })

/-- `FetchOperand(k)` if the opcode's top two bits say there is an operand `k`; a byte no behaviour uses otherwise
(R71). -/
def State.operandIf (s : State) (opc : Byte) (k : Nat) : Attempt Byte :=
  if k < opcodeLength opc then s.fetchOperand k else pure 0

/-- One iteration of the loop (R71). -/
def State.iteration (s : State) : Attempt State := do
  let opc ← s.fetchOpcode
  let t ←
    if isKnown opc then do
      let op1 ← s.operandIf opc 1
      let op2 ← s.operandIf opc 2
      behaviour opc op1 op2 s
    else pure s
  pure (if isPcSetter opc then t else t.setPc (t.pc + BitVec.ofNat Config.pcBits (opcodeLength opc)))

/-- The loop's step: an iteration while `RUN = 1`, with a raised fault latched and everything else as at the start
(R8, R70, R71). -/
def State.loopStep (s : State) : State :=
  if s.run then
    match s.iteration with
    | .ok t => t
    | .error f => takeFault f s
  else s

end Sys2Proof.Machine
end

