-- ==== Sys2Proof/Machine/HostInterface.lean ====
section
/-! DEFINITION. What the host can do to the block (50_host_interface.md rules R130 to R136, 70_reset_and_hazards.md
rule R160). The engine's own moves are `step`; the host's are `hostStep` (log entry 9). -/

namespace Sys2Proof.Machine

/-- The six host operations, "exactly these things ... and nothing else" (R130). Addresses and values are numbers, since
the host can ask for one the block does not have. -/
inductive HostOp where
  /-- "machine construction", with the content `MEM_INIT` of the new memory (R160, decision D16). -/
  | reset (memInit : Vector Byte Config.memSize)
  /-- `load(program)`, one number per program byte (R131). -/
  | load (program : List Nat)
  /-- `ramWrite` (R133). -/
  | ramWrite (a v : Nat)
  /-- `ramRead` (R133). -/
  | ramRead (a : Nat)
  /-- `run()`: starts the engine, whose steps then follow (R132). -/
  | run
  /-- Reads `RUN`, `FAULT` and `OUT` (R130, R135). -/
  | observe
deriving DecidableEq, Repr

/-- What a host operation returns. -/
inductive HostAnswer where
  /-- Nothing. -/
  | done
  /-- The byte `ramRead` asked for. -/
  | byte (v : Byte)
  /-- `RUN`, `FAULT` and `OUT`. -/
  | status (run : Bool) (fault : Option FaultRecord) (out : List RegWord)
deriving DecidableEq, Repr

/-- The outcome of a host operation: the state after it and its answer, or a refusal. -/
abbrev HostResult := Host.Outcome (State × HostAnswer) Fault Refusal

/-- "The host performs no operation while `RUN = 1`" (R136). -/
def whenStopped (s : State) (r : HostResult) : HostResult := if s.run then .refused .hostWhileRunning else r

/-- Reset, allowed at any time: every piece of state at its reset value (R130, R160). -/
def hostReset (memInit : Vector Byte Config.memSize) : HostResult := .next (State.resetWith memInit, .done)

/-- Load: byte `i` of the program goes to `mem[i]`; memory only (R131, decisions D22, D26). -/
def hostLoad (program : List Nat) (s : State) : HostResult :=
  if Config.memSize < program.length then .refused .hostProgramTooLong
  else if program.all (· < 2 ^ Config.cellBits) then
    .next (s.setMem (s.mem.writeBytes 0 (program.map (BitVec.ofNat Config.cellBits))), .done)
  else .refused .hostValueOutOfRange

/-- `ramWrite(a, v)`: `mem[a] <- v`, no other effect (R133, decision D21). -/
def hostRamWrite (a v : Nat) (s : State) : HostResult :=
  if a < Config.memSize then
    if v < 2 ^ Config.cellBits then .next (s.setMem (s.mem.write a (BitVec.ofNat Config.cellBits v)), .done)
    else .refused .hostValueOutOfRange
  else .refused .hostAddressOutOfRange

/-- `ramRead(a)`: `mem[a]`, no effect (R133, decision D21). -/
def hostRamRead (a : Nat) (s : State) : HostResult :=
  if a < Config.memSize then .next (s, .byte (s.mem.read a)) else .refused .hostAddressOutOfRange

/-- `run`: sets `RUN` if no fault is latched, and then does nothing if one is; resets nothing (R132, R23). -/
def hostRun (s : State) : HostResult :=
  match s.fault with
  | none => .next (s.setRun true, .done)
  | some _ => .next (s, .done)

/-- Observe: the status the host can read (R130, R135). -/
def hostObserve (s : State) : HostResult := .next (s, .status s.run s.fault s.out)

/-- One host operation (R130). -/
def hostStep (op : HostOp) (s : State) : HostResult :=
  match op with
  | .reset memInit => hostReset memInit
  | .load program => whenStopped s (hostLoad program s)
  | .ramWrite a v => whenStopped s (hostRamWrite a v s)
  | .ramRead a => whenStopped s (hostRamRead a s)
  | .run => whenStopped s (hostRun s)
  | .observe => whenStopped s (hostObserve s)

end Sys2Proof.Machine
end

