-- ==== Sys2Proof/Safety.lean ====
section
/-! DEFINITION. The terms claims use: the machine's invariant, the ends of a run, when a step faults, the register
table of 10_state.md rule R12, and frames. -/

namespace Sys2Proof.Machine

/-! ### The invariant -/

/-- The (code, info) pairs a fault can latch (60_exceptions.md rule R142). -/
def FaultRecord.legal (f : FaultRecord) : Bool :=
  match f.code with
  | .fetchBounds => decide (Config.memSize ≤ f.info ∧ f.info < Config.memSize + Config.maxILen)
  | .operandBounds => decide (Config.memSize ≤ f.info ∧ f.info ≤ Config.memSize + 1)
  | .regIndex => decide (Config.nregs ≤ f.info ∧ f.info < 2 ^ Config.cellBits)
  | .stackReadBounds => decide (Config.memSize ≤ f.info ∧ f.info < 2 ^ Config.xlen)
  | .stackWriteBounds => decide (Config.memSize ≤ f.info ∧ f.info < 2 ^ Config.xlen)

/-- The code of a fault cause (R142). -/
def Fault.code : Fault → Nat
  | .fetchBounds => 1
  | .operandBounds => 2
  | .regIndex => 3
  | .stackReadBounds => 4
  | .stackWriteBounds => 5

/-- What holds of every state the engine and the host can reach. -/
structure State.Inv (s : State) : Prop where
  /-- Memory is in its canonical form, inside addresses 0..254 (R19). -/
  mem_wf : s.mem.wf = true
  /-- "the largest value any rule can produce is 258" (R15). -/
  pc_le : s.pc.toNat < Config.memSize + Config.maxILen
  /-- "`RUN = 1` implies `FAULT = none` at all times" (50_host_interface.md rule R132). -/
  run_fault : s.run = true → s.fault = none
  /-- A latched fault is one of R142's. -/
  fault_legal : ∀ f, s.fault = some f → f.legal = true

/-! ### The ends of a run (00_scope.md section 5; 50_host_interface.md rule R137) -/

/-- `RUN = 0` and `FAULT = none`: the clean end of a run. -/
def State.Halted (s : State) : Prop := s.run = false ∧ s.fault = none

/-- `RUN = 0` and a latched fault: the bad end of a run. -/
def State.Faulted (s : State) : Prop := s.run = false ∧ ∃ f, s.fault = some f

/-- `k` steps of the engine from `s` lead to `t`. -/
def StepsTo (k : Nat) (s t : State) : Prop := Sys2Proof.core.run k s = .next t

/-! ### When a step faults (60_exceptions.md rules R142, R143) -/

/-- The opcodes whose first operand is a register index (R142, code 3). -/
def indexesOp1 (opc : Byte) : Bool :=
  [0x82#8, 0x47#8, 0xA2#8, 0xA7#8, 0x45#8, 0x46#8, 0x50#8, 0x54#8, 0x55#8, 0x56#8].contains opc

/-- The opcodes whose second operand is a register index: `MUL` and `CMP` (R143). -/
def indexesOp2 (opc : Byte) : Bool := [0xA2#8, 0xA7#8].contains opc

/-- The opcodes that read the stack: `POP` and `RET` (R142, code 4). -/
def readsStack (opc : Byte) : Bool := [0x46#8, 0x11#8].contains opc

/-- The opcodes that write the stack: `PUSH` and `CALL` (R142, code 5). -/
def writesStack (opc : Byte) : Bool := [0x45#8, 0x50#8].contains opc

/-- The fault a step of a running machine meets, if any: the first of R142's conditions in R143's order of checks,
read off memory and R7 alone. A step is safe when there is none. -/
def State.firstFault (s : State) : Option FaultRecord :=
  let p := s.pc.toNat
  let opc := s.mem.read p
  let op1 := (s.mem.read (p + 1)).toNat
  let op2 := (s.mem.read (p + 2)).toNat
  let sp := (s.reg Config.spIndex).toNat
  let pushed := (sp + (2 ^ Config.xlen - 1)) % 2 ^ Config.xlen
  if Config.memSize ≤ p then some { code := .fetchBounds, info := p }
  else if !isKnown opc then none
  else if 1 ≤ opc.toNat / 64 ∧ Config.memSize ≤ p + 1 then some { code := .operandBounds, info := p + 1 }
  else if 2 ≤ opc.toNat / 64 ∧ Config.memSize ≤ p + 2 then some { code := .operandBounds, info := p + 2 }
  else if indexesOp1 opc ∧ Config.nregs ≤ op1 then some { code := .regIndex, info := op1 }
  else if indexesOp2 opc ∧ Config.nregs ≤ op2 then some { code := .regIndex, info := op2 }
  else if readsStack opc ∧ Config.memSize ≤ sp then some { code := .stackReadBounds, info := sp }
  else if writesStack opc ∧ Config.memSize ≤ pushed then some { code := .stackWriteBounds, info := pushed }
  else none

/-! ### Which registers an instruction reads and writes (10_state.md rule R12) -/

/-- The register a legal operand byte names. -/
def namesReg (op : Byte) (j : Fin Config.nregs) : Bool := op.toNat == j.val

/-- The "writes" column of R12's table. -/
def writesReg (i : Instr) (j : Fin Config.nregs) : Bool :=
  match i with
  | .hlt => false
  | .ldi op1 _ => namesReg op1 j
  | .prn _ => false
  | .mul op1 _ => namesReg op1 j
  | .push _ => j == Config.spIndex
  | .pop op1 => namesReg op1 j || j == Config.spIndex
  | .call _ => j == Config.spIndex
  | .ret => j == Config.retReg || j == Config.spIndex
  | .jmp _ => false
  | .jeq _ => false
  | .jne _ => false
  | .cmp _ _ => false
  | .unknown _ => false

/-! ### Frames -/

/-- Every register is unchanged. -/
def SameRegs (s t : State) : Prop := ∀ j, t.reg j = s.reg j

/-- Every register but `n` is unchanged. -/
def SameRegsBut (n : Fin Config.nregs) (s t : State) : Prop := ∀ j, j ≠ n → t.reg j = s.reg j

/-- Every address reads as before. -/
def SameMem (s t : State) : Prop := ∀ a, t.mem.read a = s.mem.read a

/-- Every address but `x` reads as before. -/
def SameMemBut (x : Nat) (s t : State) : Prop := ∀ a, a ≠ x → t.mem.read a = s.mem.read a

/-- `RUN` and `FAULT` are unchanged. -/
def SameControl (s t : State) : Prop := t.run = s.run ∧ t.fault = s.fault

/-- `t` is `s` with the fault `f` taken: `FAULT` and `RUN` written, everything else unchanged (R141, R144). -/
def FaultTaken (f : FaultRecord) (s t : State) : Prop :=
  t.fault = some f ∧ t.run = false ∧ SameRegs s t ∧ SameMem s t ∧ t.pc = s.pc ∧ t.flags = s.flags ∧ t.out = s.out

/-- The instruction answers a next state that is `s` with the fault `f` taken. -/
def FaultsWith (i : Instr) (s : State) (f : FaultRecord) : Prop :=
  ∃ t, exec i s = .next t ∧ FaultTaken f s t

/-- Whichever fetch reaches address `a` next finds the byte `v` there: among the bytes a step decodes, as an opcode, as an
operand (20_memory.md rule R40). -/
def State.FetchesAt (s : State) (a : Nat) (v : Byte) : Prop :=
  (∀ k, k < Config.maxILen → s.pc.toNat + k = a → s.fetchBytes[k]? = some v) ∧
  (s.pc.toNat = a → s.fetchOpcode = .ok v) ∧ ∀ k, s.pc.toNat + k = a → s.fetchOperand k = .ok v

/-- The bytes stand in memory at `a`, `a + 1`, …, all inside it. -/
def Memory.Holds (m : Memory) (a : Nat) (bytes : List Byte) : Prop := m.bytesFrom a bytes.length = bytes

end Sys2Proof.Machine
end

