-- ==== Sys2Proof/Certificates/Slice0/Obligations.lean ====
section
/-! DEFINITION. The statements for the provers. Each docstring names the rule of spec/ it formalises; a clause that rests
on a choice of the model names its log entry. -/

open Sys2Proof Sys2Proof.Machine

/-! ### The instructions, one by one -/

/-- R75. `HLT` clears `RUN` and advances by one; the registers, flags, memory and `OUT` are unchanged. In a running
machine a `HLT` at any address 0..254 is executed (so its only fault is its own opcode fetch's), and a later `run`
resumes at the new `pc`. -/
def Obligations.HltStopsAndAdvancesByOne : Prop :=
  (∀ rest, decode (0b00000001#8 :: rest) = .ok (.hlt, rest)) ∧
  ∀ s : State,
    (∃ t, exec .hlt s = .next t ∧ t.run = false ∧ t.fault = s.fault ∧ t.pc = s.pc + 1 ∧ SameRegs s t ∧ SameMem s t ∧
      t.flags = s.flags ∧ t.out = s.out ∧
      (s.fault = none → hostStep .run t = .next ({ t with run := true }, .done))) ∧
    (s.run = true → s.pc.toNat < 255 → s.mem.read s.pc.toNat = 0x01#8 → step s = exec .hlt s)

/-- R76. An unknown opcode changes nothing but `pc`, which advances by `opc[7:6] + 1`; a running machine executes it at
any address 0..254, whatever bytes follow and whether or not they exist. -/
def Obligations.UnknownOpcodeOnlyAdvances : Prop :=
  ∀ (opc : Byte), isKnown opc = false →
    (∀ rest, decode (opc :: rest) = .ok (.unknown opc, rest)) ∧
    ∀ s : State,
      (∃ t, exec (.unknown opc) s = .next t ∧ t.pc = s.pc + BitVec.ofNat 9 (opc.toNat / 64 + 1) ∧
        (s.pc.toNat < 255 → t.pc.toNat = s.pc.toNat + opc.toNat / 64 + 1) ∧ SameRegs s t ∧ SameMem s t ∧
        t.flags = s.flags ∧ t.out = s.out ∧ SameControl s t) ∧
      (s.run = true → s.pc.toNat < 255 → s.mem.read s.pc.toNat = opc → step s = exec (.unknown opc) s)

/-- R90. `LDI`: a legal register receives the immediate unchanged, nothing else but `pc` changes; an illegal one raises
`Fault(3, op1)`. -/
def Obligations.LdiLoadsTheImmediate : Prop :=
  ∀ (op1 op2 : Byte),
    (∀ rest, decode (0b10000010#8 :: op1 :: op2 :: rest) = .ok (.ldi op1 op2, rest)) ∧
    ∀ s : State,
      (∀ h : op1.toNat < 8, ∃ t, exec (.ldi op1 op2) s = .next t ∧ t.reg ⟨op1.toNat, h⟩ = op2 ∧
        SameRegsBut ⟨op1.toNat, h⟩ s t ∧ t.pc = s.pc + 3 ∧ SameMem s t ∧ t.flags = s.flags ∧ t.out = s.out ∧
        SameControl s t) ∧
      (8 ≤ op1.toNat → FaultsWith (.ldi op1 op2) s { code := .regIndex, info := op1.toNat })

/-- R91. `PRN`: the register's value is appended to `OUT`; an illegal register raises `Fault(3, op1)` and nothing is
appended. -/
def Obligations.PrnAppendsTheRegister : Prop :=
  ∀ (op1 : Byte),
    (∀ rest, decode (0b01000111#8 :: op1 :: rest) = .ok (.prn op1, rest)) ∧
    ∀ s : State,
      (∀ h : op1.toNat < 8, ∃ t, exec (.prn op1) s = .next t ∧ t.out = s.out ++ [s.reg ⟨op1.toNat, h⟩] ∧
        SameRegs s t ∧ t.pc = s.pc + 2 ∧ SameMem s t ∧ t.flags = s.flags ∧ SameControl s t) ∧
      (8 ≤ op1.toNat → FaultsWith (.prn op1) s { code := .regIndex, info := op1.toNat })

/-- R92, with R94's arithmetic: `MUL` leaves the low eight bits of the unsigned product in register A and writes no
flag; op1 is checked before op2. -/
def Obligations.MulKeepsTheLowByteOfTheProduct : Prop :=
  ∀ (op1 op2 : Byte),
    (∀ rest, decode (0b10100010#8 :: op1 :: op2 :: rest) = .ok (.mul op1 op2, rest)) ∧
    ∀ s : State,
      (∀ (h1 : op1.toNat < 8) (h2 : op2.toNat < 8), ∃ t, exec (.mul op1 op2) s = .next t ∧
        (t.reg ⟨op1.toNat, h1⟩).toNat = ((s.reg ⟨op1.toNat, h1⟩).toNat * (s.reg ⟨op2.toNat, h2⟩).toNat) % 256 ∧
        SameRegsBut ⟨op1.toNat, h1⟩ s t ∧ t.pc = s.pc + 3 ∧ SameMem s t ∧ t.flags = s.flags ∧ t.out = s.out ∧
        SameControl s t) ∧
      (8 ≤ op1.toNat → FaultsWith (.mul op1 op2) s { code := .regIndex, info := op1.toNat }) ∧
      (op1.toNat < 8 → 8 ≤ op2.toNat → FaultsWith (.mul op1 op2) s { code := .regIndex, info := op2.toNat })

/-- R93 (and its table, R95). `CMP` sets exactly the flag the unsigned relation names, leaves the other two as they
were, and writes nothing else but `pc`; op1 is checked before op2. -/
def Obligations.CmpSetsOneFlagAndClearsNone : Prop :=
  ∀ (op1 op2 : Byte),
    (∀ rest, decode (0b10100111#8 :: op1 :: op2 :: rest) = .ok (.cmp op1 op2, rest)) ∧
    ∀ s : State,
      (∀ (h1 : op1.toNat < 8) (h2 : op2.toNat < 8), ∃ t, exec (.cmp op1 op2) s = .next t ∧
        ((s.reg ⟨op1.toNat, h1⟩).toNat = (s.reg ⟨op2.toNat, h2⟩).toNat →
          t.flags.eq = true ∧ t.flags.lt = s.flags.lt ∧ t.flags.gt = s.flags.gt) ∧
        ((s.reg ⟨op1.toNat, h1⟩).toNat < (s.reg ⟨op2.toNat, h2⟩).toNat →
          t.flags.lt = true ∧ t.flags.gt = s.flags.gt ∧ t.flags.eq = s.flags.eq) ∧
        ((s.reg ⟨op2.toNat, h2⟩).toNat < (s.reg ⟨op1.toNat, h1⟩).toNat →
          t.flags.gt = true ∧ t.flags.lt = s.flags.lt ∧ t.flags.eq = s.flags.eq) ∧
        SameRegs s t ∧ t.pc = s.pc + 3 ∧ SameMem s t ∧ t.out = s.out ∧ SameControl s t) ∧
      (8 ≤ op1.toNat → FaultsWith (.cmp op1 op2) s { code := .regIndex, info := op1.toNat }) ∧
      (op1.toNat < 8 → 8 ≤ op2.toNat → FaultsWith (.cmp op1 op2) s { code := .regIndex, info := op2.toNat })

/-- R101. `PUSH`: the stack pointer is decremented, the cell it then addresses receives the register as it is after that
decrement (so `PUSH R7` stores the decremented value), and no other cell or register changes. With R7 = 0 the address is
255 and the fault is `Fault(5, 255)`. -/
def Obligations.PushStoresBelowTheStackPointer : Prop :=
  ∀ (op1 : Byte),
    (∀ rest, decode (0b01000101#8 :: op1 :: rest) = .ok (.push op1, rest)) ∧
    ∀ s : State, s.mem.wf = true →
      (∀ h : op1.toNat < 8, s.reg 7 ≠ 0#8 → ∃ t, exec (.push op1) s = .next t ∧ t.reg 7 = s.pushAddr ∧
        s.pushAddr.toNat = (s.reg 7).toNat - 1 ∧
        t.mem.read s.pushAddr.toNat =
          (if (⟨op1.toNat, h⟩ : Fin 8) = 7 then s.pushAddr else s.reg ⟨op1.toNat, h⟩) ∧
        SameMemBut s.pushAddr.toNat s t ∧ SameRegsBut 7 s t ∧ t.pc = s.pc + 2 ∧ t.flags = s.flags ∧ t.out = s.out ∧
        SameControl s t) ∧
      (op1.toNat < 8 → s.reg 7 = 0#8 → FaultsWith (.push op1) s { code := .stackWriteBounds, info := 255 }) ∧
      (8 ≤ op1.toNat → FaultsWith (.push op1) s { code := .regIndex, info := op1.toNat })

/-- R102. `POP`: the register receives the cell R7 addresses, then R7 is incremented (so `POP R7` ends with the popped
value plus one, modulo 256); memory is not written. With R7 = 255 the fault is `Fault(4, 255)`. -/
def Obligations.PopLoadsTheTopCell : Prop :=
  ∀ (op1 : Byte),
    (∀ rest, decode (0b01000110#8 :: op1 :: rest) = .ok (.pop op1, rest)) ∧
    ∀ s : State,
      (∀ h : op1.toNat < 8, s.reg 7 ≠ 255#8 → ∃ t, exec (.pop op1) s = .next t ∧
        ((⟨op1.toNat, h⟩ : Fin 8) ≠ 7 →
          t.reg ⟨op1.toNat, h⟩ = s.mem.read (s.reg 7).toNat ∧ (t.reg 7).toNat = (s.reg 7).toNat + 1) ∧
        ((⟨op1.toNat, h⟩ : Fin 8) = 7 → (t.reg 7).toNat = ((s.mem.read (s.reg 7).toNat).toNat + 1) % 256) ∧
        (∀ j, j ≠ ⟨op1.toNat, h⟩ → j ≠ 7 → t.reg j = s.reg j) ∧ SameMem s t ∧ t.pc = s.pc + 2 ∧ t.flags = s.flags ∧
        t.out = s.out ∧ SameControl s t) ∧
      (op1.toNat < 8 → s.reg 7 = 255#8 → FaultsWith (.pop op1) s { code := .stackReadBounds, info := 255 }) ∧
      (8 ≤ op1.toNat → FaultsWith (.pop op1) s { code := .regIndex, info := op1.toNat })

/-- R111. `JMP`: `pc` becomes the register's value, zero-extended; nothing else changes. -/
def Obligations.JmpTakesTheRegisterAsPc : Prop :=
  ∀ (op1 : Byte),
    (∀ rest, decode (0b01010100#8 :: op1 :: rest) = .ok (.jmp op1, rest)) ∧
    ∀ s : State,
      (∀ h : op1.toNat < 8, ∃ t, exec (.jmp op1) s = .next t ∧ t.pc.toNat = (s.reg ⟨op1.toNat, h⟩).toNat ∧
        SameRegs s t ∧ SameMem s t ∧ t.flags = s.flags ∧ t.out = s.out ∧ SameControl s t) ∧
      (8 ≤ op1.toNat → FaultsWith (.jmp op1) s { code := .regIndex, info := op1.toNat })

/-- R112. `JEQ`: jumps to the register if EQ is set, else `pc + 2`; an illegal register faults on both paths; no flag is
written. -/
def Obligations.JeqJumpsWhenEqIsSet : Prop :=
  ∀ (op1 : Byte),
    (∀ rest, decode (0b01010101#8 :: op1 :: rest) = .ok (.jeq op1, rest)) ∧
    ∀ s : State,
      (∀ h : op1.toNat < 8, ∃ t, exec (.jeq op1) s = .next t ∧
        (s.flags.eq = true → t.pc.toNat = (s.reg ⟨op1.toNat, h⟩).toNat) ∧ (s.flags.eq = false → t.pc = s.pc + 2) ∧
        SameRegs s t ∧ SameMem s t ∧ t.flags = s.flags ∧ t.out = s.out ∧ SameControl s t) ∧
      (8 ≤ op1.toNat → FaultsWith (.jeq op1) s { code := .regIndex, info := op1.toNat })

/-- R113. `JNE`: jumps to the register if EQ is clear, else `pc + 2`; an illegal register faults on both paths; no flag
is written. -/
def Obligations.JneJumpsWhenEqIsClear : Prop :=
  ∀ (op1 : Byte),
    (∀ rest, decode (0b01010110#8 :: op1 :: rest) = .ok (.jne op1, rest)) ∧
    ∀ s : State,
      (∀ h : op1.toNat < 8, ∃ t, exec (.jne op1) s = .next t ∧
        (s.flags.eq = false → t.pc.toNat = (s.reg ⟨op1.toNat, h⟩).toNat) ∧ (s.flags.eq = true → t.pc = s.pc + 2) ∧
        SameRegs s t ∧ SameMem s t ∧ t.flags = s.flags ∧ t.out = s.out ∧ SameControl s t) ∧
      (8 ≤ op1.toNat → FaultsWith (.jne op1) s { code := .regIndex, info := op1.toNat })

/-- R114. `CALL`: the stack pointer is decremented, the cell it then addresses receives the address of the next
instruction, `pc + 2` (which fits a byte wherever the operand fetch succeeded), and `pc` becomes the register as it is
after the decrement (so `CALL R7` jumps to the decremented stack pointer); only R7 and that one cell change. -/
def Obligations.CallPushesTheReturnAddress : Prop :=
  ∀ (op1 : Byte),
    (∀ rest, decode (0b01010000#8 :: op1 :: rest) = .ok (.call op1, rest)) ∧
    ∀ s : State, s.mem.wf = true →
      (∀ h : op1.toNat < 8, s.reg 7 ≠ 0#8 → ∃ t, exec (.call op1) s = .next t ∧ t.reg 7 = s.pushAddr ∧
        s.pushAddr.toNat = (s.reg 7).toNat - 1 ∧
        (s.pc.toNat + 1 < 255 → (t.mem.read s.pushAddr.toNat).toNat = s.pc.toNat + 2) ∧
        t.pc.toNat = (if (⟨op1.toNat, h⟩ : Fin 8) = 7 then s.pushAddr else s.reg ⟨op1.toNat, h⟩).toNat ∧
        SameMemBut s.pushAddr.toNat s t ∧ SameRegsBut 7 s t ∧ t.flags = s.flags ∧ t.out = s.out ∧ SameControl s t) ∧
      (op1.toNat < 8 → s.reg 7 = 0#8 → FaultsWith (.call op1) s { code := .stackWriteBounds, info := 255 }) ∧
      (8 ≤ op1.toNat → FaultsWith (.call op1) s { code := .regIndex, info := op1.toNat })

/-- R115. `RET`: pops the cell R7 addresses into R0 and takes `pc` from it; R0 and R7 are the only registers written and
memory is not. With R7 = 255 the fault is `Fault(4, 255)`. -/
def Obligations.RetPopsIntoR0AndPc : Prop :=
  (∀ rest, decode (0b00010001#8 :: rest) = .ok (.ret, rest)) ∧
  ∀ s : State,
    (s.reg 7 ≠ 255#8 → ∃ t, exec .ret s = .next t ∧ t.reg 0 = s.mem.read (s.reg 7).toNat ∧
      (t.reg 7).toNat = (s.reg 7).toNat + 1 ∧ t.pc.toNat = (s.mem.read (s.reg 7).toNat).toNat ∧
      (∀ j, j ≠ 0 → j ≠ 7 → t.reg j = s.reg j) ∧ SameMem s t ∧ t.flags = s.flags ∧ t.out = s.out ∧ SameControl s t) ∧
    (s.reg 7 = 255#8 → FaultsWith .ret s { code := .stackReadBounds, info := 255 })

/-! ### Encoding -/

/-- R54. The opcode table: every row's bytes decode to its instruction, and its length and its membership in the
PC-setter set are the table's. -/
def Obligations.EveryTableRowDecodes : Prop :=
  ∀ (a b : Byte) (rest : List Byte),
    decode (0x01#8 :: rest) = .ok (.hlt, rest) ∧
    decode (0x82#8 :: a :: b :: rest) = .ok (.ldi a b, rest) ∧
    decode (0x47#8 :: a :: rest) = .ok (.prn a, rest) ∧
    decode (0xA2#8 :: a :: b :: rest) = .ok (.mul a b, rest) ∧
    decode (0x45#8 :: a :: rest) = .ok (.push a, rest) ∧
    decode (0x46#8 :: a :: rest) = .ok (.pop a, rest) ∧
    decode (0x50#8 :: a :: rest) = .ok (.call a, rest) ∧
    decode (0x11#8 :: rest) = .ok (.ret, rest) ∧
    decode (0x54#8 :: a :: rest) = .ok (.jmp a, rest) ∧
    decode (0x55#8 :: a :: rest) = .ok (.jeq a, rest) ∧
    decode (0x56#8 :: a :: rest) = .ok (.jne a, rest) ∧
    decode (0xA7#8 :: a :: b :: rest) = .ok (.cmp a b, rest) ∧
    knownOpcodes.Nodup ∧
    knownOpcodes = [0x01#8, 0x82#8, 0x47#8, 0xA2#8, 0x45#8, 0x46#8, 0x50#8, 0x11#8, 0x54#8, 0x55#8, 0x56#8, 0xA7#8] ∧
    knownOpcodes.map opcodeLength = [1, 3, 2, 3, 2, 2, 2, 1, 2, 2, 2, 3] ∧
    knownOpcodes.filter isPcSetter = [0x50#8, 0x11#8, 0x54#8, 0x55#8, 0x56#8] ∧
    (∀ opc, isKnown opc = false → decode (opc :: rest) = .ok (.unknown opc, rest))

/-- 30_encoding.md sections 1 and 4. The length is the opcode's top two bits plus one, for every byte, so it depends on
the opcode alone; and the decoder takes exactly that many bytes for a known opcode. That it takes the opcode byte alone
for an unknown one, leaving the skipped bytes in the rest, is the model's choice (log entry 6). -/
def Obligations.LengthIsTheTopTwoBitsPlusOne : Prop :=
  (∀ opc : Byte, opcodeLength opc = opc.toNat / 64 + 1) ∧
  ∀ (opc : Byte) (bytes : List Byte) (i : Instr) (rest : List Byte), decode (opc :: bytes) = .ok (i, rest) →
    (isKnown opc = true → (opc :: bytes).length = opcodeLength opc + rest.length) ∧
    (isKnown opc = false → bytes = rest)

/-- Decode and encode agree, in both directions: bytes decode to an instruction exactly when the instruction is
well formed and its encoding heads the bytes, for every instruction with every operand byte. So no bit of an encoding
is dropped and no two instructions share their bytes (30_encoding.md R51, R54, R55; what a skipped byte of an unknown
opcode is: log entry 6). -/
def Obligations.DecodeAndEncodeAgree : Prop :=
  ∀ (bytes : List Byte) (i : Instr) (rest : List Byte),
    decode bytes = .ok (i, rest) ↔ i.wf = true ∧ bytes = encode i ++ rest

/-- Decoding is total (30_encoding.md section 4, "no byte is invalid, and decoding never fails"): it lacks something
exactly when the bytes end before the opcode or before an operand byte that the known opcode's top two bits announce. -/
def Obligations.DecodingFailsOnlyWhereBytesEnd : Prop :=
  ∀ (opc : Byte) (rest : List Byte),
    ((∃ i r, decode (opc :: rest) = .ok (i, r) ∧ i.opcode = opc) ↔
      (isKnown opc = true → opcodeLength opc ≤ rest.length + 1)) ∧
    (decode (opc :: rest) = .error .noOperand1 ↔ isKnown opc = true ∧ 2 ≤ opcodeLength opc ∧ rest.length = 0) ∧
    (decode (opc :: rest) = .error .noOperand2 ↔ isKnown opc = true ∧ opcodeLength opc = 3 ∧ rest.length = 1) ∧
    decode (opc :: rest) ≠ .error .noOpcode

/-! ### The step -/

/-- A running machine whose bytes at `pc` decode to an instruction executes that instruction; the bytes are those of
memory from `pc` on, none past the end of memory. -/
def Obligations.StepExecutesTheDecodedInstruction : Prop :=
  ∀ (s : State) (i : Instr) (rest : List Byte), s.run = true →
    decode (s.mem.bytesFrom s.pc.toNat 4) = .ok (i, rest) → step s = exec i s

/-- A running machine in whose memory a well-formed instruction stands at `pc` executes that instruction: its bytes are
what the encoder writes, wherever they lie in memory. -/
def Obligations.StepExecutesTheEncodedInstruction : Prop :=
  ∀ (s : State) (i : Instr), s.run = true → i.wf = true → s.mem.Holds s.pc.toNat (encode i) → step s = exec i s

/-- With `RUN = 0` the engine does nothing (40_engine_cycle.md section 1): a step leaves the state as it is, and so does
any number of them. -/
def Obligations.StoppedEngineDoesNothing : Prop :=
  ∀ s : State, s.run = false → step s = .next s ∧ ∀ k, StepsTo k s s

/-- 40_engine_cycle.md section 1. A step of a running machine is the document's own loop: fetch, length, operands,
behaviour by exact opcode match, generic advance unless the opcode is a PC-setter, a raised fault latched on the state
before the step. That a step of a stopped machine answers the same state is the model's form of "the engine does
nothing" (log entry 2). -/
def Obligations.StepIsTheDocumentsLoop : Prop :=
  ∀ s : State, step s = .next s.loopStep

/-- Every instruction in every state ends in a next state, and so does every step (60_exceptions.md R147: every
instruction is available at all times). -/
def Obligations.EveryStepAnswersANextState : Prop :=
  (∀ (i : Instr) (s : State), ∃ t, exec i s = .next t) ∧ ∀ (k : Nat) (s : State), ∃ t, StepsTo k s t

/-- R56. Every byte value that is not in the PC-setter set, known or unknown, receives the generic advance, without a
wrap, in every step that does not fault; the set is {CALL, RET, JMP, JEQ, JNE}. A PC-setter leaves `pc` as its
behaviour sets it: at a register's value (R0's for `RET`) or, for `JEQ` and `JNE` not taken, `pc + 2`. -/
def Obligations.OnlyPcSettersEscapeTheGenericAdvance : Prop :=
  (∀ opc : Byte, isPcSetter opc = true ↔
    opc = 0x50#8 ∨ opc = 0x11#8 ∨ opc = 0x54#8 ∨ opc = 0x55#8 ∨ opc = 0x56#8) ∧
  ∀ s t : State, s.run = true → step s = .next t → t.fault = none →
    (isPcSetter (s.mem.read s.pc.toNat) = false →
      t.pc.toNat = s.pc.toNat + (s.mem.read s.pc.toNat).toNat / 64 + 1) ∧
    (isPcSetter (s.mem.read s.pc.toNat) = true →
      (∃ j, t.pc.toNat = (t.reg j).toNat) ∨
      ((s.mem.read s.pc.toNat = 0x55#8 ∨ s.mem.read s.pc.toNat = 0x56#8) ∧ t.pc.toNat = s.pc.toNat + 2))

/-- R110. A target is the register's eight bits, zero-extended and not checked when `pc` is written: for each of the
five PC-setters that jumps to a value `v`, `pc` becomes `v` and the machine runs on; only if `v` is 255 does the next
step's opcode fetch raise `Fault(1, 255)`. -/
def Obligations.JumpTargetsAreCheckedOnlyAtTheFetch : Prop :=
  ∀ (op1 v : Byte) (h : op1.toNat < 8) (s t : State), s.run = true → s.fault = none →
    (exec (.jmp op1) s = .next t ∧ s.reg ⟨op1.toNat, h⟩ = v ∨
     exec (.jeq op1) s = .next t ∧ s.flags.eq = true ∧ s.reg ⟨op1.toNat, h⟩ = v ∨
     exec (.jne op1) s = .next t ∧ s.flags.eq = false ∧ s.reg ⟨op1.toNat, h⟩ = v ∨
     exec (.call op1) s = .next t ∧ s.reg 7 ≠ 0#8 ∧ t.reg ⟨op1.toNat, h⟩ = v ∨
     exec .ret s = .next t ∧ s.reg 7 ≠ 255#8 ∧ s.mem.read (s.reg 7).toNat = v) →
    t.pc.toNat = v.toNat ∧ t.run = true ∧ t.fault = none ∧
    (v.toNat < 255 → t.fetchOpcode = .ok (t.mem.read v.toNat)) ∧
    (v = 255 → ∃ u, step t = .next u ∧ FaultTaken { code := .fetchBounds, info := 255 } t u)

/-! ### Faults -/

/-- R142, R143. A running step latches exactly the first of the five conditions in the fixed order of checks, with its
code and info; where none holds, no fault is latched. The codes are 1 to 5 in the order of the table. -/
def Obligations.StepLatchesTheFirstFault : Prop :=
  [Fault.fetchBounds, .operandBounds, .regIndex, .stackReadBounds, .stackWriteBounds].map Fault.code = [1, 2, 3, 4, 5] ∧
  ∀ s : State, s.run = true → s.fault = none →
    ∃ t, step s = .next t ∧ t.fault = s.firstFault

/-- R141, R144. A step that latches a fault changes `FAULT` and `RUN` and nothing else: registers (R7 included), flags,
memory, `pc` and `OUT` are exactly as before the step. The engine then takes no further step. -/
def Obligations.FaultsArePrecise : Prop :=
  ∀ (s t : State) (f : FaultRecord), s.fault = none → step s = .next t → t.fault = some f →
    t = { s with fault := some f, run := false } ∧ ∀ k, StepsTo k t t

/-- R146. A faulted machine stays as it is: no step changes it, `run` does nothing, and no host operation but reset
clears the fault or starts the engine. -/
def Obligations.FaultedMachineStaysUntilReset : Prop :=
  ∀ s : State, s.Faulted →
    (∀ k, StepsTo k s s) ∧ hostStep .run s = .next (s, .done) ∧
    (∀ op t a, hostStep op s = .next (t, a) → (∀ memInit, op ≠ .reset memInit) → t.fault = s.fault ∧ t.run = false)

/-- 50_host_interface.md section 3. A run ends only by a `HLT`, with `pc` one past it and everything else as it was, or
by a fault, with everything but the latch as it was. -/
def Obligations.RunEndsOnlyByHltOrFault : Prop :=
  ∀ s t : State, s.run = true → s.fault = none → step s = .next t → t.run = false →
    (s.mem.read s.pc.toNat = 0x01#8 ∧ t = { s with run := false, pc := s.pc + 1 } ∧ t.Halted) ∨
    (∃ f, FaultTaken f s t ∧ s.firstFault = some f)

/-- "An infinite run is a legal behaviour of the machine" (40_engine_cycle.md, Termination; R111's corner case): a `JMP`
to its own address runs for any number of steps. -/
def Obligations.JumpToItselfRunsForever : Prop :=
  ∀ (s : State) (op1 : Byte) (h : op1.toNat < 8), s.run = true → s.mem.Holds s.pc.toNat [0x54#8, op1] →
    (s.reg ⟨op1.toNat, h⟩).toNat = s.pc.toNat → ∀ k, ∃ t, StepsTo k s t ∧ t = s ∧ t.run = true

/-! ### Invariants and reset -/

/-- Every step keeps the invariant: memory canonical and inside 0..254, `pc` at most 258, `RUN = 1` only without a
fault, a latched fault one of R142's. -/
def Obligations.StepKeepsTheInvariant : Prop :=
  ∀ s t : State, s.Inv → step s = .next t → t.Inv

/-- Every host operation keeps the invariant. -/
def Obligations.HostOperationsKeepTheInvariant : Prop :=
  ∀ (op : HostOp) (s t : State) (a : HostAnswer), s.Inv → hostStep op s = .next (t, a) → t.Inv

/-- The invariant holds after reset, for every content of memory. -/
def Obligations.ResetMeetsTheInvariant : Prop :=
  State.reset.Inv ∧ ∀ memInit : Vector Byte 255, (State.resetWith memInit).Inv

/-- R22. After reset, with any memory content `MEM_INIT`: registers 0, `pc` 0, flags 0, `RUN` 0, `FAULT` none,
`OUT` empty, memory `MEM_INIT`; the host's reset gives this state from every state, running or not. -/
def Obligations.ResetValues : Prop :=
  ∀ (memInit : Vector Byte 255) (s : State),
    ∃ t, hostStep (.reset memInit) s = .next (t, .done) ∧ (∀ j, t.reg j = 0) ∧ t.pc = 0 ∧
      t.flags = { lt := false, gt := false, eq := false } ∧
      t.flags.bits = Vector.replicate Config.nflags false ∧ t.run = false ∧ t.fault = none ∧ t.out = [] ∧
      (∀ a (h : a < 255), t.mem.read a = memInit[a])

/-- The model's own choice (log entry 3): `State.reset` is the reset whose memory content is all zeros. -/
def Obligations.ResetIsTheResetWithZeroMemory : Prop :=
  State.resetWith (Vector.replicate 255 0) = State.reset

/-- Memories in canonical form that read alike at every address are the same data, so equality of states is equality of
what they hold (log entry 3). -/
def Obligations.CanonicalMemoriesThatReadAlikeAreEqual : Prop :=
  ∀ m n : Memory, m.wf = true → n.wf = true → (∀ a, m.read a = n.read a) → m = n

/-! ### Rules about the whole machine -/

/-- R16. Reset clears the three flags; no step clears one; a step that changes a flag executes a `CMP`. -/
def Obligations.FlagsAreStickyAndOnlyCmpWritesThem : Prop :=
  State.reset.flags = { lt := false, gt := false, eq := false } ∧
  ∀ s t : State, step s = .next t →
    (s.flags.lt = true → t.flags.lt = true) ∧ (s.flags.gt = true → t.flags.gt = true) ∧
    (s.flags.eq = true → t.flags.eq = true) ∧ (s.mem.read s.pc.toNat ≠ 0xA7#8 → t.flags = s.flags)

/-- R96. LT and GT are written, by `CMP`, and never read: two states that differ only in them step to states that differ
only in them, and every host operation is refused alike, or answers the same in both and leads to states that differ
only in them. -/
def Obligations.LtAndGtAreNeverRead : Prop :=
  (∀ (a b : Byte) (ha : a.toNat < 8) (hb : b.toNat < 8) (s : State), ∃ t, exec (.cmp a b) s = .next t ∧
    ((s.reg ⟨a.toNat, ha⟩).toNat < (s.reg ⟨b.toNat, hb⟩).toNat → t.flags.lt = true) ∧
    ((s.reg ⟨b.toNat, hb⟩).toNat < (s.reg ⟨a.toNat, ha⟩).toNat → t.flags.gt = true)) ∧
  ∀ (s s' : State) (l g : Bool), s' = { s with flags := { s.flags with lt := l, gt := g } } →
    (∃ t t', step s = .next t ∧ step s' = .next t' ∧
      t' = { t with flags := { t.flags with lt := t'.flags.lt, gt := t'.flags.gt } }) ∧
    (∀ op, (∀ r, hostStep op s = .refused r ↔ hostStep op s' = .refused r) ∧
      ∀ t a, hostStep op s = .next (t, a) → ∃ t', hostStep op s' = .next (t', a) ∧
        t' = { t with flags := { t.flags with lt := t'.flags.lt, gt := t'.flags.gt } })

/-- R20. `OUT` is empty after reset, append-only, and never read by the engine: a step appends the same values whatever
`OUT` held, namely nothing, or the value of the register a `PRN` names. -/
def Obligations.OutputIsAppendOnlyAndNeverRead : Prop :=
  (∀ memInit : Vector Byte 255, (State.resetWith memInit).out = []) ∧
  ∀ s t : State, step s = .next t → ∃ new : List Byte, t.out = s.out ++ new ∧
    (new ≠ [] → s.mem.read s.pc.toNat = 0x47#8 ∧
      ∃ h : (s.mem.read (s.pc.toNat + 1)).toNat < 8, new = [s.reg ⟨(s.mem.read (s.pc.toNat + 1)).toNat, h⟩]) ∧
    ∀ o : List Byte, step { s with out := o } = .next { t with out := o ++ new }

/-- 20_memory.md section 1. The engine writes memory only in `PUSH` and `CALL`, and only the cell at `(x[7] - 1) mod
256`. -/
def Obligations.OnlyPushAndCallWriteMemory : Prop :=
  ∀ (s t : State) (a : Nat), s.mem.wf = true → step s = .next t → t.mem.read a ≠ s.mem.read a →
    (s.mem.read s.pc.toNat = 0x45#8 ∨ s.mem.read s.pc.toNat = 0x50#8) ∧ a = s.pushAddr.toNat

/-- The writes of 10_state.md's register table: an instruction leaves every register outside its "writes" column
unchanged. -/
def Obligations.RegistersOutsideTheTableAreUnchanged : Prop :=
  ∀ (i : Instr) (s t : State) (j : Fin 8), exec i s = .next t → writesReg i j = false → t.reg j = s.reg j

/-- 20_memory.md section 4 (self-modifying code). The byte a `PUSH` or a `CALL` stores is what the very next fetch of
that address sees, among the bytes a step decodes, as an opcode and as an operand: for `PUSH` the register (for `PUSH R7`
the decremented R7), for `CALL` the return address, and `CALL R7` jumps to the very cell it has stored. -/
def Obligations.StoredByteIsFetchedNext : Prop :=
  ∀ (s : State) (op1 : Byte) (h : op1.toNat < 8), s.mem.wf = true → s.reg 7 ≠ 0#8 →
    (∃ t, exec (.push op1) s = .next t ∧ t.FetchesAt s.pushAddr.toNat
      (if (⟨op1.toNat, h⟩ : Fin 8) = 7 then s.pushAddr else s.reg ⟨op1.toNat, h⟩)) ∧
    (s.pc.toNat + 1 < 255 → ∃ t b, exec (.call op1) s = .next t ∧ b.toNat = s.pc.toNat + 2 ∧
      t.FetchesAt s.pushAddr.toNat b ∧ (op1.toNat = 7 → t.pc.toNat = s.pushAddr.toNat))

/-! ### Two instructions together -/

/-- 41_data_compare.md section 2: "`LDI r, v` followed by `PRN r` outputs v", run from memory. -/
def Obligations.LdiThenPrnOutputsTheValue : Prop :=
  ∀ (s : State) (r v : Byte), r.toNat < 8 → s.run = true → s.mem.Holds s.pc.toNat [0x82#8, r, v, 0x47#8, r] →
    ∃ t, StepsTo 2 s t ∧ t.out = s.out ++ [v] ∧ t.pc.toNat = s.pc.toNat + 5 ∧ t.run = true ∧ SameMem s t

/-- 41_data_compare.md section 3: "`MUL` is commutative on stored values", from the same initial state. -/
def Obligations.MulIsCommutativeOnStoredValues : Prop :=
  ∀ (s : State) (a b : Byte) (ha : a.toNat < 8) (hb : b.toNat < 8),
    ∃ t u, exec (.mul a b) s = .next t ∧ exec (.mul b a) s = .next u ∧
      t.reg ⟨a.toNat, ha⟩ = u.reg ⟨b.toNat, hb⟩

/-- 42_stack.md section 4: the stack round trip, with its premises (registers other than R7, R7 not 0). -/
def Obligations.PushThenPopMovesTheRegister : Prop :=
  ∀ (s : State) (r1 r2 : Byte) (h1 : r1.toNat < 7) (h2 : r2.toNat < 7), s.mem.wf = true → s.reg 7 ≠ 0#8 →
    ∃ t u, exec (.push r1) s = .next t ∧ exec (.pop r2) t = .next u ∧
      u.reg ⟨r2.toNat, Nat.lt_succ_of_lt h2⟩ = s.reg ⟨r1.toNat, Nat.lt_succ_of_lt h1⟩ ∧ u.reg 7 = s.reg 7 ∧ SameControl s u ∧
      (∀ j : Fin 8, j.val ≠ r2.toNat → u.reg j = s.reg j)

/-- 42_stack.md section 4: the stack from reset. A `PUSH` or `CALL` faults with `Fault(5, 255)`; a `POP` or `RET` reads
`mem[0]` and sets R7 to 1. -/
def Obligations.StackFromReset : Prop :=
  ∀ (memInit : Vector Byte 255) (op1 : Byte) (h : op1.toNat < 7), let s := State.resetWith memInit
    FaultsWith (.push op1) s { code := .stackWriteBounds, info := 255 } ∧
    FaultsWith (.call op1) s { code := .stackWriteBounds, info := 255 } ∧
    (∃ t, exec (.pop op1) s = .next t ∧ t.reg ⟨op1.toNat, Nat.lt_succ_of_lt h⟩ = memInit[0] ∧ t.reg 7 = 1 ∧ t.fault = none) ∧
    (∃ t, exec .ret s = .next t ∧ t.pc.toNat = memInit[0].toNat ∧ t.reg 0 = memInit[0] ∧ t.reg 7 = 1 ∧ t.fault = none)

/-- 43_control_flow.md section 7: a `CALL` and a `RET` that finds R7 and the return-address cell as the `CALL` left them
resume at the instruction after the `CALL`, with R7 restored and R0 holding the return address. -/
def Obligations.RetResumesAfterTheCall : Prop :=
  ∀ (s t u : State) (op1 : Byte), s.mem.wf = true → op1.toNat < 8 → s.reg 7 ≠ 0#8 → s.pc.toNat + 1 < 255 →
    exec (.call op1) s = .next t → u.reg 7 = t.reg 7 →
    u.mem.read (t.reg 7).toNat = t.mem.read (t.reg 7).toNat →
    ∃ w, exec .ret u = .next w ∧ w.pc.toNat = s.pc.toNat + 2 ∧ w.reg 7 = s.reg 7 ∧ (w.reg 0).toNat = s.pc.toNat + 2

/-- 43_control_flow.md section 7: after a `CMP` of equal values `JEQ` jumps; after a `CMP` of unequal values `JNE` jumps
if EQ was clear before the `CMP`. -/
def Obligations.CmpDecidesTheConditionalJump : Prop :=
  ∀ (s : State) (a b r : Byte) (ha : a.toNat < 8) (hb : b.toNat < 8) (hr : r.toNat < 8),
    ∃ t, exec (.cmp a b) s = .next t ∧
      (s.reg ⟨a.toNat, ha⟩ = s.reg ⟨b.toNat, hb⟩ →
        ∃ u, exec (.jeq r) t = .next u ∧ u.pc.toNat = (s.reg ⟨r.toNat, hr⟩).toNat) ∧
      (s.reg ⟨a.toNat, ha⟩ ≠ s.reg ⟨b.toNat, hb⟩ → s.flags.eq = false →
        ∃ u, exec (.jne r) t = .next u ∧ u.pc.toNat = (s.reg ⟨r.toNat, hr⟩).toNat)

/-- 43_control_flow.md section 7: from the first equal `CMP` on, after any number of steps, every `JEQ` is taken and
every `JNE` falls through. -/
def Obligations.OnceEqualNoJneIsTaken : Prop :=
  ∀ (k : Nat) (s t : State) (r : Byte) (h : r.toNat < 8), s.flags.eq = true → StepsTo k s t →
    ∃ u w, exec (.jeq r) t = .next u ∧ u.pc.toNat = (t.reg ⟨r.toNat, h⟩).toNat ∧
      exec (.jne r) t = .next w ∧ w.pc = t.pc + 2

/-! ### The host -/

/-- R131. Load writes byte `i` of the program to `mem[i]`, keeps the other cells, touches nothing but memory, and is
refused for a longer program or a wider literal. -/
def Obligations.LoadWritesTheProgramFromAddressZero : Prop :=
  ∀ (program : List Nat) (s : State), s.run = false → s.mem.wf = true →
    (program.length ≤ 255 → (∀ v ∈ program, v < 256) → ∃ t, hostStep (.load program) s = .next (t, .done) ∧
      (∀ i (h : i < program.length), (t.mem.read i).toNat = program[i]) ∧
      (∀ a, program.length ≤ a → t.mem.read a = s.mem.read a) ∧
      SameRegs s t ∧ t.flags = s.flags ∧ t.pc = s.pc ∧ SameControl s t ∧ t.out = s.out) ∧
    (255 < program.length ∨ (∃ v ∈ program, 256 ≤ v) → ∃ r, hostStep (.load program) s = .refused r)

/-- 50_host_interface.md section 1. `run` starts a stopped machine that has no fault and resets nothing, so the first fetch is at the current `pc`;
however many steps the engine then takes, no fault is latched while `RUN = 1`, and once `RUN = 0` it takes no more; with
a fault latched `run` does nothing; in a running machine it is refused. The split of run into its start, which answers
at once, and the steps that follow is the model's choice (log entry 9). -/
def Obligations.RunStartsOnlyAnUnfaultedMachine : Prop :=
  ∀ s : State,
    (s.run = false → s.fault = none → hostStep .run s = .next ({ s with run := true }, .done) ∧
      ∀ (k : Nat) (t : State), StepsTo k { s with run := true } t →
        (t.run = true → t.fault = none) ∧ (t.run = false → StepsTo (k + 1) { s with run := true } t)) ∧
    (s.run = false → s.fault ≠ none → hostStep .run s = .next (s, .done)) ∧
    (s.run = true → hostStep .run s = .refused .hostWhileRunning)

/-- R133. `ramRead` answers the cell and changes nothing; `ramWrite` sets that cell and nothing else; an address outside
0..254 or a value outside 0..255 is refused. -/
def Obligations.RamReadAndRamWriteReachOneCell : Prop :=
  ∀ (s : State) (a v : Nat), s.run = false → s.mem.wf = true →
    (a < 255 → hostStep (.ramRead a) s = .next (s, .byte (s.mem.read a))) ∧
    (a < 255 → v < 256 → ∃ t, hostStep (.ramWrite a v) s = .next (t, .done) ∧ (t.mem.read a).toNat = v ∧
      SameMemBut a s t ∧ SameRegs s t ∧ t.flags = s.flags ∧ t.pc = s.pc ∧ SameControl s t ∧ t.out = s.out) ∧
    (255 ≤ a → ∃ r, hostStep (.ramRead a) s = .refused r) ∧
    (255 ≤ a ∨ 256 ≤ v → ∃ r, hostStep (.ramWrite a v) s = .refused r)

/-- R135. After a run, started from any stopped machine and ended after any number of steps, the host can tell a clean
halt from a fault, and reads `OUT` and every cell of memory; asking changes nothing. -/
def Obligations.HostObservesTheStatus : Prop :=
  ∀ (s s1 t : State) (a : HostAnswer) (k : Nat), hostStep .run s = .next (s1, a) → StepsTo k s1 t → t.run = false →
    hostStep .observe t = .next (t, .status false t.fault t.out) ∧
    (t.Halted ↔ t.fault = none) ∧ (t.Faulted ↔ ∃ f, t.fault = some f) ∧
    ∀ x, x < 255 → hostStep (.ramRead x) t = .next (t, .byte (t.mem.read x))

/-- R136. While `RUN = 1` the host has no operation but reset, which discards the run. -/
def Obligations.HostIsSilentWhileRunning : Prop :=
  ∀ (s : State) (op : HostOp), s.run = true →
    (∃ memInit, op = .reset memInit ∧ hostStep op s = .next (State.resetWith memInit, .done)) ∨
    ((∀ memInit, op ≠ .reset memInit) ∧ hostStep op s = .refused .hostWhileRunning)

/-- 70_reset_and_hazards.md section 1. Reset, load, run: the machine then runs at address 0, with the program's bytes at
sequential addresses from 0 and everything else but `RUN` at its reset value: the cells past the program hold
`MEM_INIT`. That `run` answers a running machine, whose steps then follow, is the model's form (log entry 9). -/
def Obligations.BootRunsFromAddressZero : Prop :=
  ∀ (memInit : Vector Byte 255) (program : List Nat) (s0 : State), program.length ≤ 255 → (∀ v ∈ program, v < 256) →
    ∃ s1 s2 s3, hostStep (.reset memInit) s0 = .next (s1, .done) ∧ hostStep (.load program) s1 = .next (s2, .done) ∧
      hostStep .run s2 = .next (s3, .done) ∧ s3.run = true ∧ s3.fault = none ∧ s3.pc = 0 ∧ (∀ j, s3.reg j = 0) ∧
      s3.flags = { lt := false, gt := false, eq := false } ∧ s3.out = [] ∧
      (∀ i (h : i < program.length), (s3.mem.read i).toNat = program[i]) ∧
      (∀ a (h : a < 255), program.length ≤ a → s3.mem.read a = memInit[a]) ∧
      s3.fetchOpcode = .ok (s3.mem.read 0)
end

