-- ==== Sys2Proof/Laws/Decode.lean ====
section
/-! SUPPORT. Small laws of the decoder. -/

namespace Sys2Proof

/-- The length as a quotient: the top two bits of a byte are its value divided by 64. -/
theorem opcodeLength_eq (opcode : Byte) : opcodeLength opcode = opcode.toNat / 64 + 1 := by
  revert opcode
  decide

theorem isKnown_iff (opcode : Byte) : isKnown opcode = true ↔ opcode ∈ knownOpcodes := by
  simp [isKnown]

/-- The decoder's last row: a byte that is none of the twelve is an unknown opcode and takes no operand (R55). -/
theorem decodeOpcode_unknown {opcode : Byte} (h : isKnown opcode = false) (rest : List Byte) :
    decodeOpcode opcode rest = .ok (.unknown opcode, rest) := by
  simp only [isKnown, knownOpcodes, List.contains_eq_mem, List.mem_cons, List.not_mem_nil, or_false,
    decide_eq_false_iff_not, not_or] at h
  simp [decodeOpcode, decodeZ, h]

end Sys2Proof
end

