-- ==== Sys2Proof/Laws/Memory.lean ====
section
/-! SUPPORT. The laws of memory: what a read answers after a write, that every memory operation keeps the canonical
form, and the bytes that stand from an address on. -/

namespace Sys2Proof.Machine

/-! ### Read after write -/

theorem Memory.read_below (m : Memory) (lo a : Nat) (hm : Memory.wfFrom lo m = true) (h : a < lo) :
    m.read a = memFill := by
  induction m generalizing lo with
  | nil => rfl
  | cons c rest ih =>
    obtain ⟨k, v⟩ := c
    simp only [Memory.wfFrom, Bool.and_eq_true, decide_eq_true_eq] at hm
    have : a ≠ k := by omega
    simp only [Memory.read, this, if_false]
    exact ih (k + 1) hm.2 (by omega)

theorem Memory.wfFrom_mono {lo lo' : Nat} (h : lo' ≤ lo) {m : Memory} (hm : Memory.wfFrom lo m = true) :
    Memory.wfFrom lo' m = true := by
  cases m with
  | nil => rfl
  | cons c rest =>
    obtain ⟨k, v⟩ := c
    simp only [Memory.wfFrom, Bool.and_eq_true, decide_eq_true_eq] at hm ⊢
    exact ⟨⟨⟨by omega, hm.1.1.2⟩, hm.1.2⟩, hm.2⟩

theorem Memory.read_cons (a x : Nat) (v : Byte) (rest : Memory) (h : v = memFill → rest.read a = memFill) :
    (Memory.cons a v rest).read x = if x = a then v else rest.read x := by
  unfold Memory.cons
  by_cases hv : v = memFill
  · subst hv
    by_cases hx : x = a
    · subst hx; simp [h rfl]
    · simp [hx]
  · simp [hv, Memory.read]

/-- A write changes the cell it names and no other (20_memory.md rule R37). -/
theorem Memory.read_write (m : Memory) (lo a x : Nat) (v : Byte) (hm : Memory.wfFrom lo m = true) :
    (m.write a v).read x = if x = a then v else m.read x := by
  induction m generalizing lo with
  | nil => exact Memory.read_cons a x v [] (fun _ => rfl)
  | cons c rest ih =>
    obtain ⟨k, w⟩ := c
    have hm' := hm
    simp only [Memory.wfFrom, Bool.and_eq_true, decide_eq_true_eq] at hm'
    unfold Memory.write
    split
    · rename_i hlt
      refine Memory.read_cons a x v _ (fun _ => Memory.read_below _ k a ?_ hlt)
      simp only [Memory.wfFrom, Bool.and_eq_true, decide_eq_true_eq]
      exact ⟨⟨⟨Nat.le_refl k, hm'.1.1.2⟩, hm'.1.2⟩, hm'.2⟩
    · split
      · rename_i h1 h2
        subst h2
        rw [Memory.read_cons a x v rest (fun _ => Memory.read_below rest (a + 1) a hm'.2 (by omega))]
        by_cases hx : x = a <;> simp [Memory.read, hx]
      · rename_i h1 h2
        simp only [Memory.read]
        by_cases hx : x = k
        · have : x ≠ a := by omega
          simp [hx]; omega
        · simp [hx, ih (k + 1) hm'.2]

theorem Memory.read_write_same (m : Memory) (a : Nat) (v : Byte) (hm : m.wf = true) :
    (m.write a v).read a = v := by
  simp [Memory.read_write m 0 a a v hm]

theorem Memory.read_write_other (m : Memory) (a x : Nat) (v : Byte) (hm : m.wf = true) (h : x ≠ a) :
    (m.write a v).read x = m.read x := by
  simp [Memory.read_write m 0 a x v hm, h]

/-- No cell lies past the end of memory. -/
theorem Memory.read_past (m : Memory) (lo a : Nat) (hm : Memory.wfFrom lo m = true) (h : Config.memSize ≤ a) :
    m.read a = memFill := by
  induction m generalizing lo with
  | nil => rfl
  | cons c rest ih =>
    obtain ⟨k, v⟩ := c
    simp only [Memory.wfFrom, Bool.and_eq_true, decide_eq_true_eq] at hm
    have : a ≠ k := by omega
    simp only [Memory.read, this, if_false]
    exact ih (k + 1) hm.2

/-! ### The canonical form is kept -/

theorem Memory.cons_wfFrom {lo a : Nat} {v : Byte} {rest : Memory} (h1 : lo ≤ a) (h2 : a < Config.memSize)
    (hr : Memory.wfFrom (a + 1) rest = true) : Memory.wfFrom lo (Memory.cons a v rest) = true := by
  unfold Memory.cons
  split
  · exact Memory.wfFrom_mono (by omega) hr
  · rename_i hv
    simp only [Memory.wfFrom, Bool.and_eq_true, decide_eq_true_eq]
    exact ⟨⟨⟨h1, h2⟩, hv⟩, hr⟩

theorem Memory.write_wfFrom (m : Memory) (lo a : Nat) (v : Byte) (hm : Memory.wfFrom lo m = true) (h1 : lo ≤ a)
    (h2 : a < Config.memSize) : Memory.wfFrom lo (m.write a v) = true := by
  induction m generalizing lo with
  | nil => exact Memory.cons_wfFrom h1 h2 rfl
  | cons c rest ih =>
    obtain ⟨k, w⟩ := c
    have hm' := hm
    simp only [Memory.wfFrom, Bool.and_eq_true, decide_eq_true_eq] at hm'
    unfold Memory.write
    split
    · rename_i hlt
      refine Memory.cons_wfFrom h1 h2 ?_
      simp only [Memory.wfFrom, Bool.and_eq_true, decide_eq_true_eq]
      exact ⟨⟨⟨hlt, hm'.1.1.2⟩, hm'.1.2⟩, hm'.2⟩
    · split
      · rename_i h3 h4
        subst h4
        exact Memory.cons_wfFrom h1 h2 hm'.2
      · rename_i h3 h4
        simp only [Memory.wfFrom, Bool.and_eq_true, decide_eq_true_eq]
        exact ⟨⟨⟨hm'.1.1.1, hm'.1.1.2⟩, hm'.1.2⟩, ih (k + 1) hm'.2 (by omega)⟩

/-- A write inside memory keeps the canonical form. -/
theorem Memory.write_wf (m : Memory) (a : Nat) (v : Byte) (hm : m.wf = true) (h : a < Config.memSize) :
    (m.write a v).wf = true :=
  Memory.write_wfFrom m 0 a v hm (Nat.zero_le a) h

/-- Writing a sequence of bytes keeps the canonical form. -/
theorem Memory.writeBytes_wf (bytes : List Byte) (m : Memory) (a : Nat) (hm : m.wf = true) :
    (m.writeBytes a bytes).wf = true := by
  induction bytes generalizing m a with
  | nil => exact hm
  | cons v rest ih =>
    apply ih
    split
    · exact Memory.write_wf m a v hm ‹_›
    · exact hm

/-- What an address reads as after a sequence of bytes is written from `a`. -/
theorem Memory.read_writeBytes (bytes : List Byte) (m : Memory) (a x : Nat) (hm : m.wf = true)
    (hx : x < Config.memSize) :
    (m.writeBytes a bytes).read x = if a ≤ x then (bytes[x - a]?).getD (m.read x) else m.read x := by
  induction bytes generalizing m a with
  | nil => simp [Memory.writeBytes]
  | cons v rest ih =>
    simp only [Memory.writeBytes]
    by_cases h : a < Config.memSize
    · simp only [h, if_true]
      rw [ih _ _ (Memory.write_wf m a v hm h)]
      by_cases hxa : x = a
      · subst hxa
        simp [Memory.read_write_same m x v hm]
      · rw [Memory.read_write_other m a x v hm hxa]
        by_cases hle : a ≤ x
        · have h1 : a + 1 ≤ x := by omega
          obtain ⟨d, rfl⟩ : ∃ d, x = a + 1 + d := ⟨x - (a + 1), by omega⟩
          have h2 : a + 1 + d - a = d + 1 := by omega
          simp [h2, hle]
        · have h1 : ¬ a + 1 ≤ x := by omega
          simp [hle, h1]
    · have hle : ¬ a ≤ x := by omega
      have hle' : ¬ a + 1 ≤ x := by omega
      simp only [h, if_false]
      rw [ih _ _ hm]
      simp [hle, hle']

theorem Memory.ofImage_wf (image : List Byte) : (Memory.ofImage image).wf = true :=
  Memory.writeBytes_wf image [] 0 rfl

theorem State.reset_mem_wf : State.reset.mem.wf = true := rfl

/-! ### The bytes from an address on -/

theorem Memory.bytesFrom_succ (m : Memory) (a n : Nat) :
    m.bytesFrom a (n + 1) = if a < Config.memSize then m.read a :: m.bytesFrom (a + 1) n else [] := rfl

theorem Memory.bytesFrom_past (m : Memory) (a n : Nat) (h : Config.memSize ≤ a) : m.bytesFrom a n = [] := by
  cases n with
  | zero => rfl
  | succ n => simp [Memory.bytesFrom, Nat.not_lt.mpr h]

end Sys2Proof.Machine
end

