-- ==== Sys2Proof/Laws/State.lean ====
section
/-! SUPPORT. One lemma per field per update of the state, true by `rfl`, so that no proof unfolds a record update; the
register file; and equality of states field by field. -/

namespace Sys2Proof.Machine

/-! ### The register file -/

@[simp] theorem State.reg_setReg (s : State) (i j : Fin Config.nregs) (v : RegWord) :
    (s.setReg i v).reg j = if j = i then v else s.reg j := by
  unfold State.reg State.setReg
  by_cases h : j = i
  · subst h; simp
  · have : i.val ≠ j.val := fun e => h (Fin.ext e.symm)
    simp [this, h]

theorem State.regs_ext {s t : State} (h : ∀ j, s.reg j = t.reg j) : s.regs = t.regs := by
  apply Vector.ext
  intro i hi
  exact h ⟨i, hi⟩

/-- Two states are equal when they agree on every register and every other field. -/
theorem State.ext_reg {s t : State} (hr : ∀ j, s.reg j = t.reg j) (hp : s.pc = t.pc) (hf : s.flags = t.flags)
    (hn : s.run = t.run) (hl : s.fault = t.fault) (hm : s.mem = t.mem) (ho : s.out = t.out) : s = t := by
  have := State.regs_ext hr
  cases s; cases t
  simp_all

@[simp] theorem State.reg_reset (j : Fin Config.nregs) : State.reset.reg j = 0 := by
  revert j; decide

/-! ### `setReg` -/

@[simp] theorem State.pc_setReg (s : State) (i : Fin Config.nregs) (v : RegWord) : (s.setReg i v).pc = s.pc := rfl
@[simp] theorem State.flags_setReg (s : State) (i : Fin Config.nregs) (v : RegWord) : (s.setReg i v).flags = s.flags := rfl
@[simp] theorem State.run_setReg (s : State) (i : Fin Config.nregs) (v : RegWord) : (s.setReg i v).run = s.run := rfl
@[simp] theorem State.fault_setReg (s : State) (i : Fin Config.nregs) (v : RegWord) : (s.setReg i v).fault = s.fault := rfl
@[simp] theorem State.mem_setReg (s : State) (i : Fin Config.nregs) (v : RegWord) : (s.setReg i v).mem = s.mem := rfl
@[simp] theorem State.out_setReg (s : State) (i : Fin Config.nregs) (v : RegWord) : (s.setReg i v).out = s.out := rfl

/-! ### `setPc` -/

@[simp] theorem State.reg_setPc (s : State) (p : PcWord) (j : Fin Config.nregs) : (s.setPc p).reg j = s.reg j := rfl
@[simp] theorem State.regs_setPc (s : State) (p : PcWord) : (s.setPc p).regs = s.regs := rfl
@[simp] theorem State.pc_setPc (s : State) (p : PcWord) : (s.setPc p).pc = p := rfl
@[simp] theorem State.flags_setPc (s : State) (p : PcWord) : (s.setPc p).flags = s.flags := rfl
@[simp] theorem State.run_setPc (s : State) (p : PcWord) : (s.setPc p).run = s.run := rfl
@[simp] theorem State.fault_setPc (s : State) (p : PcWord) : (s.setPc p).fault = s.fault := rfl
@[simp] theorem State.mem_setPc (s : State) (p : PcWord) : (s.setPc p).mem = s.mem := rfl
@[simp] theorem State.out_setPc (s : State) (p : PcWord) : (s.setPc p).out = s.out := rfl

/-! ### `advance` -/

@[simp] theorem State.reg_advance (s : State) (n : Nat) (j : Fin Config.nregs) : (s.advance n).reg j = s.reg j := rfl
@[simp] theorem State.regs_advance (s : State) (n : Nat) : (s.advance n).regs = s.regs := rfl
@[simp] theorem State.pc_advance (s : State) (n : Nat) : (s.advance n).pc = s.pc + BitVec.ofNat Config.pcBits n := rfl
@[simp] theorem State.flags_advance (s : State) (n : Nat) : (s.advance n).flags = s.flags := rfl
@[simp] theorem State.run_advance (s : State) (n : Nat) : (s.advance n).run = s.run := rfl
@[simp] theorem State.fault_advance (s : State) (n : Nat) : (s.advance n).fault = s.fault := rfl
@[simp] theorem State.mem_advance (s : State) (n : Nat) : (s.advance n).mem = s.mem := rfl
@[simp] theorem State.out_advance (s : State) (n : Nat) : (s.advance n).out = s.out := rfl

/-! ### `setFlags` -/

@[simp] theorem State.reg_setFlags (s : State) (f : Flags) (j : Fin Config.nregs) : (s.setFlags f).reg j = s.reg j := rfl
@[simp] theorem State.regs_setFlags (s : State) (f : Flags) : (s.setFlags f).regs = s.regs := rfl
@[simp] theorem State.pc_setFlags (s : State) (f : Flags) : (s.setFlags f).pc = s.pc := rfl
@[simp] theorem State.flags_setFlags (s : State) (f : Flags) : (s.setFlags f).flags = f := rfl
@[simp] theorem State.run_setFlags (s : State) (f : Flags) : (s.setFlags f).run = s.run := rfl
@[simp] theorem State.fault_setFlags (s : State) (f : Flags) : (s.setFlags f).fault = s.fault := rfl
@[simp] theorem State.mem_setFlags (s : State) (f : Flags) : (s.setFlags f).mem = s.mem := rfl
@[simp] theorem State.out_setFlags (s : State) (f : Flags) : (s.setFlags f).out = s.out := rfl

/-! ### `setRun` -/

@[simp] theorem State.reg_setRun (s : State) (b : Bool) (j : Fin Config.nregs) : (s.setRun b).reg j = s.reg j := rfl
@[simp] theorem State.regs_setRun (s : State) (b : Bool) : (s.setRun b).regs = s.regs := rfl
@[simp] theorem State.pc_setRun (s : State) (b : Bool) : (s.setRun b).pc = s.pc := rfl
@[simp] theorem State.flags_setRun (s : State) (b : Bool) : (s.setRun b).flags = s.flags := rfl
@[simp] theorem State.run_setRun (s : State) (b : Bool) : (s.setRun b).run = b := rfl
@[simp] theorem State.fault_setRun (s : State) (b : Bool) : (s.setRun b).fault = s.fault := rfl
@[simp] theorem State.mem_setRun (s : State) (b : Bool) : (s.setRun b).mem = s.mem := rfl
@[simp] theorem State.out_setRun (s : State) (b : Bool) : (s.setRun b).out = s.out := rfl

/-! ### `setMem` -/

@[simp] theorem State.reg_setMem (s : State) (m : Memory) (j : Fin Config.nregs) : (s.setMem m).reg j = s.reg j := rfl
@[simp] theorem State.regs_setMem (s : State) (m : Memory) : (s.setMem m).regs = s.regs := rfl
@[simp] theorem State.pc_setMem (s : State) (m : Memory) : (s.setMem m).pc = s.pc := rfl
@[simp] theorem State.flags_setMem (s : State) (m : Memory) : (s.setMem m).flags = s.flags := rfl
@[simp] theorem State.run_setMem (s : State) (m : Memory) : (s.setMem m).run = s.run := rfl
@[simp] theorem State.fault_setMem (s : State) (m : Memory) : (s.setMem m).fault = s.fault := rfl
@[simp] theorem State.mem_setMem (s : State) (m : Memory) : (s.setMem m).mem = m := rfl
@[simp] theorem State.out_setMem (s : State) (m : Memory) : (s.setMem m).out = s.out := rfl

/-! ### `emit` -/

@[simp] theorem State.reg_emit (s : State) (v : RegWord) (j : Fin Config.nregs) : (s.emit v).reg j = s.reg j := rfl
@[simp] theorem State.regs_emit (s : State) (v : RegWord) : (s.emit v).regs = s.regs := rfl
@[simp] theorem State.pc_emit (s : State) (v : RegWord) : (s.emit v).pc = s.pc := rfl
@[simp] theorem State.flags_emit (s : State) (v : RegWord) : (s.emit v).flags = s.flags := rfl
@[simp] theorem State.run_emit (s : State) (v : RegWord) : (s.emit v).run = s.run := rfl
@[simp] theorem State.fault_emit (s : State) (v : RegWord) : (s.emit v).fault = s.fault := rfl
@[simp] theorem State.mem_emit (s : State) (v : RegWord) : (s.emit v).mem = s.mem := rfl
@[simp] theorem State.out_emit (s : State) (v : RegWord) : (s.emit v).out = s.out ++ [v] := rfl

/-! ### `jump` -/

@[simp] theorem State.reg_jump (s : State) (v : RegWord) (j : Fin Config.nregs) : (s.jump v).reg j = s.reg j := rfl
@[simp] theorem State.regs_jump (s : State) (v : RegWord) : (s.jump v).regs = s.regs := rfl
@[simp] theorem State.pc_jump (s : State) (v : RegWord) : (s.jump v).pc = zext9 v := rfl
@[simp] theorem State.flags_jump (s : State) (v : RegWord) : (s.jump v).flags = s.flags := rfl
@[simp] theorem State.run_jump (s : State) (v : RegWord) : (s.jump v).run = s.run := rfl
@[simp] theorem State.fault_jump (s : State) (v : RegWord) : (s.jump v).fault = s.fault := rfl
@[simp] theorem State.mem_jump (s : State) (v : RegWord) : (s.jump v).mem = s.mem := rfl
@[simp] theorem State.out_jump (s : State) (v : RegWord) : (s.jump v).out = s.out := rfl

/-! ### `decSp` -/

@[simp] theorem State.reg_decSp (s : State) (j : Fin Config.nregs) :
    s.decSp.reg j = if j = 7 then s.pushAddr else s.reg j := State.reg_setReg ..
@[simp] theorem State.pc_decSp (s : State) : (s.decSp).pc = s.pc := rfl
@[simp] theorem State.flags_decSp (s : State) : (s.decSp).flags = s.flags := rfl
@[simp] theorem State.run_decSp (s : State) : (s.decSp).run = s.run := rfl
@[simp] theorem State.fault_decSp (s : State) : (s.decSp).fault = s.fault := rfl
@[simp] theorem State.mem_decSp (s : State) : (s.decSp).mem = s.mem := rfl
@[simp] theorem State.out_decSp (s : State) : (s.decSp).out = s.out := rfl

/-! ### `incSp` -/

@[simp] theorem State.reg_incSp (s : State) (j : Fin Config.nregs) :
    s.incSp.reg j = if j = 7 then s.reg 7 + 1#8 else s.reg j := State.reg_setReg ..
@[simp] theorem State.pc_incSp (s : State) : (s.incSp).pc = s.pc := rfl
@[simp] theorem State.flags_incSp (s : State) : (s.incSp).flags = s.flags := rfl
@[simp] theorem State.run_incSp (s : State) : (s.incSp).run = s.run := rfl
@[simp] theorem State.fault_incSp (s : State) : (s.incSp).fault = s.fault := rfl
@[simp] theorem State.mem_incSp (s : State) : (s.incSp).mem = s.mem := rfl
@[simp] theorem State.out_incSp (s : State) : (s.incSp).out = s.out := rfl

/-! ### `takeFault` -/

@[simp] theorem reg_takeFault (f : FaultRecord) (s : State) (j : Fin Config.nregs) : (takeFault f s).reg j = s.reg j := rfl
@[simp] theorem regs_takeFault (f : FaultRecord) (s : State) : (takeFault f s).regs = s.regs := rfl
@[simp] theorem pc_takeFault (f : FaultRecord) (s : State) : (takeFault f s).pc = s.pc := rfl
@[simp] theorem flags_takeFault (f : FaultRecord) (s : State) : (takeFault f s).flags = s.flags := rfl
@[simp] theorem run_takeFault (f : FaultRecord) (s : State) : (takeFault f s).run = false := rfl
@[simp] theorem fault_takeFault (f : FaultRecord) (s : State) : (takeFault f s).fault = some f := rfl
@[simp] theorem mem_takeFault (f : FaultRecord) (s : State) : (takeFault f s).mem = s.mem := rfl
@[simp] theorem out_takeFault (f : FaultRecord) (s : State) : (takeFault f s).out = s.out := rfl

end Sys2Proof.Machine
end

