-- ==== Sys2Proof/Laws/Ops.lean ====
section
/-! SUPPORT. One lemma per shared operation that says everything it can do, which proofs cite instead of unfolding it. -/

namespace Sys2Proof.Machine

/-! ### Attempts -/

@[simp] theorem Attempt.ok_bind {α β : Type} (x : α) (f : α → Attempt β) :
    ((Except.ok x : Attempt α) >>= f) = f x := rfl

@[simp] theorem Attempt.error_bind {α β : Type} (e : FaultRecord) (f : α → Attempt β) :
    ((Except.error e : Attempt α) >>= f) = Except.error e := rfl

@[simp] theorem Attempt.pure_eq {α : Type} (x : α) : (pure x : Attempt α) = Except.ok x := rfl

@[simp] theorem conclude_ok (s t : State) : conclude s (.ok t) = .next t := rfl

@[simp] theorem conclude_error (s : State) (f : FaultRecord) : conclude s (.error f) = .next (takeFault f s) := rfl

/-- An instruction always ends in a next state: its own, or the one it began in with a fault taken (R8, R144). -/
theorem conclude_cases {s t : State} {r : Attempt State} (h : conclude s r = .next t) :
    r = .ok t ∨ ∃ f, r = .error f ∧ t = takeFault f s := by
  cases r with
  | ok u => left; simpa using h
  | error f => right; exact ⟨f, rfl, by simpa using h.symm⟩

/-! ### Operands -/

theorem regOperand_legal {b : Byte} (h : b.toNat < 8) : regOperand b = .ok ⟨b.toNat, h⟩ := by
  simp [regOperand, h]

theorem regOperand_illegal {b : Byte} (h : 8 ≤ b.toNat) :
    regOperand b = .error { code := .regIndex, info := b.toNat } := by
  simp [regOperand, Nat.not_lt.mpr h]

theorem regOperand_cases (b : Byte) :
    (∃ h : b.toNat < 8, regOperand b = .ok ⟨b.toNat, h⟩) ∨
    (8 ≤ b.toNat ∧ regOperand b = .error { code := .regIndex, info := b.toNat }) := by
  by_cases h : b.toNat < 8
  · exact .inl ⟨h, regOperand_legal h⟩
  · exact .inr ⟨by omega, regOperand_illegal (by omega)⟩

/-! ### Registers and bytes: at the widths of Config.lean they are the same values -/

@[simp] theorem regOfByte_eq (v : Byte) : regOfByte v = v := BitVec.setWidth_eq v

@[simp] theorem byteOfReg_eq (v : RegWord) : byteOfReg v = v := BitVec.setWidth_eq v

@[simp] theorem immOperand_eq (v : Byte) : immOperand v = v := regOfByte_eq v

/-! ### The ranges of the words, as numbers (00_scope.md rule R6) -/

theorem byte_toNat_lt (b : Byte) : b.toNat < 256 := b.isLt

theorem regWord_toNat_lt (v : RegWord) : v.toNat < 256 := v.isLt

theorem pcWord_toNat_lt (p : PcWord) : p.toNat < 512 := p.isLt

/-- The one stack address outside memory: "only 255 is out of bounds" (20_memory.md rule R34). -/
theorem outside_iff (v : RegWord) : 255 ≤ v.toNat ↔ v = 255#8 := by
  revert v
  decide

/-- The decremented stack pointer lies outside memory only from 0 (60_exceptions.md rule R142, code 5). -/
theorem pushed_outside_iff (v : RegWord) : 255 ≤ (v.toNat + 255) % 256 ↔ v = 0#8 := by
  revert v
  decide

/-! ### The stack -/

@[simp] theorem State.popAddr_eq (s : State) : s.popAddr = s.reg 7 := rfl

@[simp] theorem retReg_eq : Config.retReg = 0 := rfl

@[simp] theorem spIndex_eq : Config.spIndex = 7 := rfl

theorem byte_toNat_ne {a b : Byte} (h : a ≠ b) : a.toNat ≠ b.toNat := fun e => h (BitVec.eq_of_toNat_eq e)

theorem byte_toNat_lt_memSize {b : Byte} (h : b ≠ 255#8) : b.toNat < Config.memSize := by
  have h1 : b.toNat < 256 := b.isLt
  have h2 : b.toNat ≠ 255 := byte_toNat_ne h
  show b.toNat < 255
  omega

/-- An increment below 255 does not wrap. -/
theorem byte_succ_toNat {b : Byte} (h : b ≠ 255#8) : (b + 1#8).toNat = b.toNat + 1 := by
  have h1 : b.toNat < 255 := byte_toNat_lt_memSize h
  simp only [BitVec.toNat_add, BitVec.toNat_ofNat, Config.cellBits]
  omega

/-- A decrement above 0 does not wrap. -/
theorem State.pushAddr_toNat {s : State} (h : s.reg 7 ≠ 0#8) : s.pushAddr.toNat = (s.reg 7).toNat - 1 := by
  have h1 : (s.reg 7).toNat ≠ 0 := byte_toNat_ne h
  have h2 : (s.reg 7).toNat < 256 := (s.reg 7).isLt
  simp only [State.pushAddr, spIndex_eq, BitVec.toNat_sub, BitVec.toNat_ofNat, Config.xlen]
  omega

/-- A push faults only when R7 is 0 (60_exceptions.md rule R142, code 5). -/
theorem State.pushAddr_ne {s : State} (h : s.reg 7 ≠ 0#8) : s.pushAddr ≠ 255#8 := by
  intro e
  have h1 := State.pushAddr_toNat h
  have h2 : (s.reg 7).toNat < 256 := (s.reg 7).isLt
  rw [e] at h1
  simp only [BitVec.toNat_ofNat, Config.xlen] at h1
  omega

theorem State.pushAddr_zero {s : State} (h : s.reg 7 = 0#8) : s.pushAddr = 255#8 := by
  simp only [State.pushAddr, spIndex_eq, h]
  rfl

/-- A pop's increment undoes a push's decrement. -/
theorem State.pushAddr_succ (s : State) : s.pushAddr + 1#8 = s.reg 7 := by
  simp [State.pushAddr]

theorem State.stackRead_cases (s : State) (a : RegWord) :
    (a ≠ 255#8 ∧ s.stackRead a = .ok (s.mem.read a.toNat)) ∨
    (a = 255#8 ∧ s.stackRead a = .error { code := .stackReadBounds, info := 255 }) := by
  by_cases h : a = 255#8
  · subst h; exact .inr ⟨rfl, rfl⟩
  · exact .inl ⟨h, by simp [State.stackRead, byte_toNat_lt_memSize h]⟩

theorem State.stackWrite_cases (s : State) (a : RegWord) (v : Byte) :
    (a ≠ 255#8 ∧ s.stackWrite a v = .ok (s.setMem (s.mem.write a.toNat v))) ∨
    (a = 255#8 ∧ s.stackWrite a v = .error { code := .stackWriteBounds, info := 255 }) := by
  by_cases h : a = 255#8
  · subst h; exact .inr ⟨rfl, rfl⟩
  · exact .inl ⟨h, by simp [State.stackWrite, byte_toNat_lt_memSize h]⟩

theorem State.stackRead_ok (s : State) {a : RegWord} (h : a ≠ 255#8) : s.stackRead a = .ok (s.mem.read a.toNat) := by
  simp [State.stackRead, byte_toNat_lt_memSize h]

theorem State.stackWrite_ok (s : State) {a : RegWord} (v : Byte) (h : a ≠ 255#8) :
    s.stackWrite a v = .ok (s.setMem (s.mem.write a.toNat v)) := by
  simp [State.stackWrite, byte_toNat_lt_memSize h]

theorem State.stackRead_255 (s : State) : s.stackRead 255#8 = .error { code := .stackReadBounds, info := 255 } := rfl

theorem State.stackWrite_255 (s : State) (v : Byte) :
    s.stackWrite 255#8 v = .error { code := .stackWriteBounds, info := 255 } := rfl

/-! ### Targets -/

theorem zext9_toNat (v : RegWord) : (zext9 v).toNat = v.toNat := by
  have : v.toNat < 256 := v.isLt
  simp only [zext9, BitVec.toNat_setWidth, Config.pcBits]
  omega

/-- The return address fits its byte wherever the operand fetch succeeded (43_control_flow.md rule R114). -/
theorem State.returnAddr_toNat {s : State} (h : s.pc.toNat + 1 < 255) : s.returnAddr.toNat = s.pc.toNat + 2 := by
  simp only [State.returnAddr, BitVec.toNat_setWidth, BitVec.toNat_add, BitVec.toNat_ofNat, Config.pcBits,
    Config.cellBits]
  omega

/-! ### Fetching -/

/-- Where an opcode can be fetched, the byte at `pc` heads the fetched bytes. -/
theorem State.fetchBytes_head {s : State} (h : s.pc.toNat < 255) :
    s.fetchBytes = s.mem.read s.pc.toNat :: s.mem.bytesFrom (s.pc.toNat + 1) 3 := by
  simp [State.fetchBytes, Memory.bytesFrom, h]

theorem State.fetchBytes_past {s : State} (h : 255 ≤ s.pc.toNat) : s.fetchBytes = [] :=
  Memory.bytesFrom_past _ _ _ h

/-- Fetching finds the instruction the decoder reads at `pc`, or a byte is missing past the end of memory. -/
theorem State.fetchInstr_cases (s : State) :
    (∃ i rest, decode s.fetchBytes = .ok (i, rest) ∧ s.fetchInstr = .ok i) ∨
    (decode s.fetchBytes = .error .noOpcode ∧ s.fetchInstr = .error { code := .fetchBounds, info := s.pc.toNat }) ∨
    (decode s.fetchBytes = .error .noOperand1 ∧
      s.fetchInstr = .error { code := .operandBounds, info := s.pc.toNat + 1 }) ∨
    (decode s.fetchBytes = .error .noOperand2 ∧
      s.fetchInstr = .error { code := .operandBounds, info := s.pc.toNat + 2 }) := by
  unfold State.fetchInstr
  rcases hd : decode s.fetchBytes with (_ | _ | _) | ⟨i, rest⟩ <;> simp

/-! ### The step -/

theorem step_stopped {s : State} (h : s.run = false) : step s = .next s := by
  simp [step, h]

theorem step_fetched {s : State} {i : Instr} (h : s.run = true) (hf : s.fetchInstr = .ok i) : step s = exec i s := by
  simp [step, h, hf]

theorem step_fetchFault {s : State} {f : FaultRecord} (h : s.run = true) (hf : s.fetchInstr = .error f) :
    step s = .next (takeFault f s) := by
  simp [step, h, hf]

/-- Everything a step can do: nothing while stopped; otherwise take the fetch's fault, or execute what was fetched. -/
theorem step_cases (s : State) :
    (s.run = false ∧ step s = .next s) ∨
    (s.run = true ∧ ∃ f, s.fetchInstr = .error f ∧ step s = .next (takeFault f s)) ∨
    (s.run = true ∧ ∃ i, s.fetchInstr = .ok i ∧ step s = exec i s) := by
  cases hr : s.run with
  | false => exact .inl ⟨rfl, step_stopped hr⟩
  | true =>
    cases hf : s.fetchInstr with
    | error f => exact .inr (.inl ⟨rfl, f, rfl, step_fetchFault hr hf⟩)
    | ok i => exact .inr (.inr ⟨rfl, i, rfl, step_fetched hr hf⟩)

end Sys2Proof.Machine
end

