-- ==== Sys2Proof/Laws/Exec.lean ====
section
/-! SUPPORT. What each instruction can do, said once: one inversion lemma per meaning that faults, an equation per meaning
that does not. Proofs about all instructions go by cases on the instruction and cite these. -/

namespace Sys2Proof.Machine

theorem exec_hlt (s : State) : exec .hlt s = .next ((s.setRun false).advance 1) := rfl

theorem exec_unknown (opc : Byte) (s : State) : exec (.unknown opc) s = .next (s.advance (opcodeLength opc)) := rfl

/-- What follows a register operand: it is legal and the instruction goes on, or its fault is taken. -/
theorem conclude_regOperand (b : Byte) (s : State) (k : Fin Config.nregs → Attempt State) :
    (∃ h : b.toNat < 8, conclude s (regOperand b >>= k) = conclude s (k ⟨b.toNat, h⟩)) ∨
    (8 ≤ b.toNat ∧ conclude s (regOperand b >>= k) = .next (takeFault { code := .regIndex, info := b.toNat } s)) := by
  rcases regOperand_cases b with ⟨h, e⟩ | ⟨h, e⟩
  · exact .inl ⟨h, by simp [e]⟩
  · exact .inr ⟨h, by simp [e]⟩

theorem exec_ldi_cases (op1 op2 : Byte) (s : State) :
    (∃ h : op1.toNat < 8, exec (.ldi op1 op2) s = .next ((s.setReg ⟨op1.toNat, h⟩ op2).advance 3)) ∨
    (8 ≤ op1.toNat ∧ exec (.ldi op1 op2) s = .next (takeFault { code := .regIndex, info := op1.toNat } s)) :=
  conclude_regOperand op1 s _

theorem exec_prn_cases (op1 : Byte) (s : State) :
    (∃ h : op1.toNat < 8, exec (.prn op1) s = .next ((s.emit (s.reg ⟨op1.toNat, h⟩)).advance 2)) ∨
    (8 ≤ op1.toNat ∧ exec (.prn op1) s = .next (takeFault { code := .regIndex, info := op1.toNat } s)) :=
  conclude_regOperand op1 s _

theorem exec_mul_cases (op1 op2 : Byte) (s : State) :
    (∃ (h1 : op1.toNat < 8) (h2 : op2.toNat < 8), exec (.mul op1 op2) s =
      .next ((s.setReg ⟨op1.toNat, h1⟩ (s.reg ⟨op1.toNat, h1⟩ * s.reg ⟨op2.toNat, h2⟩)).advance 3)) ∨
    (8 ≤ op1.toNat ∧ exec (.mul op1 op2) s = .next (takeFault { code := .regIndex, info := op1.toNat } s)) ∨
    (op1.toNat < 8 ∧ 8 ≤ op2.toNat ∧
      exec (.mul op1 op2) s = .next (takeFault { code := .regIndex, info := op2.toNat } s)) := by
  rcases regOperand_cases op1 with ⟨h1, e1⟩ | ⟨h1, e1⟩
  · rcases regOperand_cases op2 with ⟨h2, e2⟩ | ⟨h2, e2⟩
    · exact .inl ⟨h1, h2, by simp [exec, execMul, e1, e2]⟩
    · exact .inr (.inr ⟨h1, h2, by simp [exec, execMul, e1, e2]⟩)
  · exact .inr (.inl ⟨h1, by simp [exec, execMul, e1]⟩)

theorem exec_cmp_cases (op1 op2 : Byte) (s : State) :
    (∃ (h1 : op1.toNat < 8) (h2 : op2.toNat < 8), exec (.cmp op1 op2) s = .next
      ((s.setFlags (compareFlags (s.reg ⟨op1.toNat, h1⟩) (s.reg ⟨op2.toNat, h2⟩) s.flags)).advance 3)) ∨
    (8 ≤ op1.toNat ∧ exec (.cmp op1 op2) s = .next (takeFault { code := .regIndex, info := op1.toNat } s)) ∨
    (op1.toNat < 8 ∧ 8 ≤ op2.toNat ∧
      exec (.cmp op1 op2) s = .next (takeFault { code := .regIndex, info := op2.toNat } s)) := by
  rcases regOperand_cases op1 with ⟨h1, e1⟩ | ⟨h1, e1⟩
  · rcases regOperand_cases op2 with ⟨h2, e2⟩ | ⟨h2, e2⟩
    · exact .inl ⟨h1, h2, by simp [exec, execCmp, e1, e2]⟩
    · exact .inr (.inr ⟨h1, h2, by simp [exec, execCmp, e1, e2]⟩)
  · exact .inr (.inl ⟨h1, by simp [exec, execCmp, e1]⟩)

theorem exec_push_cases (op1 : Byte) (s : State) :
    (∃ h : op1.toNat < 8, s.reg 7 ≠ 0#8 ∧ exec (.push op1) s = .next
      ((s.decSp.setMem (s.mem.write s.pushAddr.toNat (s.decSp.reg ⟨op1.toNat, h⟩))).advance 2)) ∨
    (op1.toNat < 8 ∧ s.reg 7 = 0#8 ∧
      exec (.push op1) s = .next (takeFault { code := .stackWriteBounds, info := 255 } s)) ∨
    (8 ≤ op1.toNat ∧ exec (.push op1) s = .next (takeFault { code := .regIndex, info := op1.toNat } s)) := by
  rcases regOperand_cases op1 with ⟨h, e⟩ | ⟨h, e⟩
  · by_cases h7 : s.reg 7 = 0#8
    · exact .inr (.inl ⟨h, h7, by simp [exec, execPush, e, State.pushAddr_zero h7, State.stackWrite_255]⟩)
    · exact .inl ⟨h, h7, by simp [exec, execPush, e, State.stackWrite_ok _ _ (State.pushAddr_ne h7)]⟩
  · exact .inr (.inr ⟨h, by simp [exec, execPush, e]⟩)

theorem exec_pop_cases (op1 : Byte) (s : State) :
    (∃ h : op1.toNat < 8, s.reg 7 ≠ 255#8 ∧
      exec (.pop op1) s = .next ((s.setReg ⟨op1.toNat, h⟩ (s.mem.read (s.reg 7).toNat)).incSp.advance 2)) ∨
    (op1.toNat < 8 ∧ s.reg 7 = 255#8 ∧
      exec (.pop op1) s = .next (takeFault { code := .stackReadBounds, info := 255 } s)) ∨
    (8 ≤ op1.toNat ∧ exec (.pop op1) s = .next (takeFault { code := .regIndex, info := op1.toNat } s)) := by
  rcases regOperand_cases op1 with ⟨h, e⟩ | ⟨h, e⟩
  · by_cases h7 : s.reg 7 = 255#8
    · exact .inr (.inl ⟨h, h7, by simp [exec, execPop, e, h7, State.stackRead_255]⟩)
    · exact .inl ⟨h, h7, by simp [exec, execPop, e, State.stackRead_ok _ h7]⟩
  · exact .inr (.inr ⟨h, by simp [exec, execPop, e]⟩)

theorem exec_call_cases (op1 : Byte) (s : State) :
    (∃ h : op1.toNat < 8, s.reg 7 ≠ 0#8 ∧ exec (.call op1) s = .next
      ((s.decSp.setMem (s.mem.write s.pushAddr.toNat s.returnAddr)).jump (s.decSp.reg ⟨op1.toNat, h⟩))) ∨
    (op1.toNat < 8 ∧ s.reg 7 = 0#8 ∧
      exec (.call op1) s = .next (takeFault { code := .stackWriteBounds, info := 255 } s)) ∨
    (8 ≤ op1.toNat ∧ exec (.call op1) s = .next (takeFault { code := .regIndex, info := op1.toNat } s)) := by
  rcases regOperand_cases op1 with ⟨h, e⟩ | ⟨h, e⟩
  · by_cases h7 : s.reg 7 = 0#8
    · exact .inr (.inl ⟨h, h7, by simp [exec, execCall, e, State.pushAddr_zero h7, State.stackWrite_255]⟩)
    · exact .inl ⟨h, h7, by simp [exec, execCall, e, State.stackWrite_ok _ _ (State.pushAddr_ne h7)]⟩
  · exact .inr (.inr ⟨h, by simp [exec, execCall, e]⟩)

theorem exec_ret_cases (s : State) :
    (s.reg 7 ≠ 255#8 ∧ exec .ret s = .next
      ((s.setReg 0 (s.mem.read (s.reg 7).toNat)).incSp.jump (s.mem.read (s.reg 7).toNat))) ∨
    (s.reg 7 = 255#8 ∧ exec .ret s = .next (takeFault { code := .stackReadBounds, info := 255 } s)) := by
  by_cases h7 : s.reg 7 = 255#8
  · exact .inr ⟨h7, by simp [exec, execRet, h7, State.stackRead_255]⟩
  · exact .inl ⟨h7, by simp [exec, execRet, State.stackRead_ok _ h7]⟩

theorem exec_jmp_cases (op1 : Byte) (s : State) :
    (∃ h : op1.toNat < 8, exec (.jmp op1) s = .next (s.jump (s.reg ⟨op1.toNat, h⟩))) ∨
    (8 ≤ op1.toNat ∧ exec (.jmp op1) s = .next (takeFault { code := .regIndex, info := op1.toNat } s)) :=
  conclude_regOperand op1 s _

theorem exec_jeq_cases (op1 : Byte) (s : State) :
    (∃ h : op1.toNat < 8, exec (.jeq op1) s =
      .next (if s.flags.eq then s.jump (s.reg ⟨op1.toNat, h⟩) else s.advance 2)) ∨
    (8 ≤ op1.toNat ∧ exec (.jeq op1) s = .next (takeFault { code := .regIndex, info := op1.toNat } s)) :=
  conclude_regOperand op1 s _

theorem exec_jne_cases (op1 : Byte) (s : State) :
    (∃ h : op1.toNat < 8, exec (.jne op1) s =
      .next (if s.flags.eq then s.advance 2 else s.jump (s.reg ⟨op1.toNat, h⟩))) ∨
    (8 ≤ op1.toNat ∧ exec (.jne op1) s = .next (takeFault { code := .regIndex, info := op1.toNat } s)) :=
  conclude_regOperand op1 s _

end Sys2Proof.Machine
end

