-- ==== Sys2Proof/Laws/PerInstr.lean ====
section
/-! SUPPORT. Statements made per instruction, one lemma per constructor. -/

namespace Sys2Proof.Laws.Encoding

/-- The encoding of a well-formed instruction begins with its opcode byte, and, for a known opcode, has the length the
opcode's top two bits give (30_encoding.md rules R50, R54). -/
def Statement (i : Instr) : Prop :=
  (encode i).head? = some i.opcode ∧
  (isKnown i.opcode = true → i.wf = true → (encode i).length = opcodeLength i.opcode)

/-- The statement from an instruction's opcode byte and its length as numbers. -/
theorem ofLength {i : Instr} (opcode : Byte) (n : Nat) (ho : i.opcode = opcode) (hn : (encode i).length = n)
    (hl : opcodeLength opcode = n) : Statement i :=
  ⟨rfl, fun _ _ => by rw [hn, ho, hl]⟩

theorem hlt : Statement .hlt := ofLength 0x01 1 rfl rfl rfl
theorem ldi (op1 op2 : Byte) : Statement (.ldi op1 op2) := ofLength 0x82 3 rfl rfl rfl
theorem prn (op1 : Byte) : Statement (.prn op1) := ofLength 0x47 2 rfl rfl rfl
theorem mul (op1 op2 : Byte) : Statement (.mul op1 op2) := ofLength 0xA2 3 rfl rfl rfl
theorem push (op1 : Byte) : Statement (.push op1) := ofLength 0x45 2 rfl rfl rfl
theorem pop (op1 : Byte) : Statement (.pop op1) := ofLength 0x46 2 rfl rfl rfl
theorem call (op1 : Byte) : Statement (.call op1) := ofLength 0x50 2 rfl rfl rfl
theorem ret : Statement .ret := ofLength 0x11 1 rfl rfl rfl
theorem jmp (op1 : Byte) : Statement (.jmp op1) := ofLength 0x54 2 rfl rfl rfl
theorem jeq (op1 : Byte) : Statement (.jeq op1) := ofLength 0x55 2 rfl rfl rfl
theorem jne (op1 : Byte) : Statement (.jne op1) := ofLength 0x56 2 rfl rfl rfl
theorem cmp (op1 op2 : Byte) : Statement (.cmp op1 op2) := ofLength 0xA7 3 rfl rfl rfl
theorem unknown (opcode : Byte) : Statement (.unknown opcode) :=
  ⟨rfl, fun h1 h2 => by simp_all [Instr.wf, Instr.opcode]⟩

end Sys2Proof.Laws.Encoding
end

