-- ==== Sys2Proof/Laws/Run.lean ====
section
/-! SUPPORT. Laws of the terms claims use: runs of several steps, and bytes standing in memory. -/

namespace Sys2Proof.Machine

/-! ### Runs -/

/-- One step and then `k` more, for any machine of the host's interface. -/
theorem core_run_succ (M : Host.Core) (k : Nat) (s t : M.State) :
    M.run (k + 1) s = .next t ↔ ∃ u, M.step s = .next u ∧ M.run k u = .next t := by
  rw [Host.Core.run]
  cases M.step s <;> simp

theorem stepsTo_zero (s t : State) : StepsTo 0 s t ↔ s = t := by
  constructor
  · intro h; cases h; rfl
  · intro h; subst h; rfl

theorem stepsTo_succ (k : Nat) (s t : State) : StepsTo (k + 1) s t ↔ ∃ u, step s = .next u ∧ StepsTo k u t :=
  core_run_succ Sys2Proof.core k s t

/-! ### The invariant, as numbers -/

/-- "the largest value any rule can produce is 258" (10_state.md rule R15). -/
theorem State.Inv.pc_le_258 {s : State} (h : s.Inv) : s.pc.toNat ≤ 258 := Nat.le_of_lt_succ h.pc_le

/-! ### Bytes in memory -/

theorem Memory.holds_nil (m : Memory) (a : Nat) : m.Holds a [] := rfl

theorem Memory.holds_cons (m : Memory) (a : Nat) (b : Byte) (bytes : List Byte) :
    m.Holds a (b :: bytes) ↔ a < 255 ∧ m.read a = b ∧ m.Holds (a + 1) bytes := by
  simp only [Memory.Holds, List.length_cons, Memory.bytesFrom_succ]
  split <;> simp_all

/-- Bytes that stand in memory head the bytes from their address on. -/
theorem Memory.bytesFrom_of_holds {m : Memory} {bytes : List Byte} {a n : Nat} (h : m.Holds a bytes)
    (hn : bytes.length ≤ n) : ∃ rest, m.bytesFrom a n = bytes ++ rest := by
  induction bytes generalizing a n with
  | nil => exact ⟨_, rfl⟩
  | cons b bytes ih =>
    rw [Memory.holds_cons] at h
    obtain ⟨k, rfl⟩ : ∃ k, n = k + 1 := ⟨n - 1, by simp at hn; omega⟩
    obtain ⟨rest, hr⟩ := ih h.2.2 (by simpa using hn)
    refine ⟨rest, ?_⟩
    rw [Memory.bytesFrom_succ, if_pos h.1, hr, h.2.1]
    rfl

end Sys2Proof.Machine
end

