-- ==== Sys2Proof/Tests/Slice0.lean ====
section
/-! SUPPORT. Tests, each on fixed values; the expected results are the spec's own encodings (30_encoding.md rule R54) and
vectors (95_test_vectors.md, whose ids the names carry), not the model's answers. After them, for every statement with
hypotheses, a state and operands that meet them. -/

namespace Sys2Proof.Tests

open Sys2Proof.Machine

/-! ### Helpers -/

/-- The next state, if the outcome is one. -/
def after : Result → Option State
  | .next s => some s
  | .fault _ => none
  | .refused _ => none

/-- The state after a host operation, if it was not refused. -/
def hostAfter : HostResult → Option State
  | .next p => some p.1
  | .fault _ => none
  | .refused _ => none

/-- `s`, running, with bytes placed at `pc`. -/
def running (s : State) (pc : Nat) (bytes : List Byte) : State :=
  ((s.setMem (s.mem.writeBytes pc bytes)).setPc (BitVec.ofNat 9 pc)).setRun true

/-- Reset with one register loaded. -/
def with1 (i : Fin 8) (v : Byte) : State := State.reset.setReg i v

/-- Reset with two registers loaded. -/
def with2 (i : Fin 8) (v : Byte) (j : Fin 8) (w : Byte) : State := (with1 i v).setReg j w

/-- `s` with the flags LT, GT, EQ. -/
def flagged (l g e : Bool) (s : State) : State := s.setFlags { lt := l, gt := g, eq := e }

/-- `s` with one memory cell written. -/
def cell (a : Nat) (v : Byte) (s : State) : State := s.setMem (s.mem.write a v)

/-! ### Well-formedness and decoding -/

theorem test_wf_refuses_a_known_opcode_as_unknown : (Instr.unknown 0x82).wf = false := by decide
theorem test_wf_accepts_an_unknown_opcode : (Instr.unknown 0x10).wf = true := by decide
theorem test_registersLegal_refuses_each_operand :
    (Instr.ldi 8 0).registersLegal = false ∧ (Instr.prn 8).registersLegal = false ∧
    (Instr.mul 8 0).registersLegal = false ∧ (Instr.mul 0 8).registersLegal = false ∧
    (Instr.push 255).registersLegal = false ∧ (Instr.pop 8).registersLegal = false ∧
    (Instr.call 8).registersLegal = false ∧ (Instr.jmp 8).registersLegal = false ∧
    (Instr.jeq 8).registersLegal = false ∧ (Instr.jne 8).registersLegal = false ∧
    (Instr.cmp 8 0).registersLegal = false ∧ (Instr.cmp 0 8).registersLegal = false := by decide
theorem test_registersLegal_accepts_R7_and_any_immediate : (Instr.ldi 7 255).registersLegal = true := by decide

theorem test_decode_HLT : decode [0b00000001] = .ok (.hlt, []) := by decide
theorem test_decode_LDI : decode [0b10000010, 0b00000011, 0b00101010] = .ok (.ldi 3 42, []) := by decide
theorem test_decode_PRN : decode [0b01000111, 0b00000101] = .ok (.prn 5, []) := by decide
theorem test_decode_MUL : decode [0b10100010, 0b00000000, 0b00000001] = .ok (.mul 0 1, []) := by decide
theorem test_decode_PUSH : decode [0b01000101, 0b00000010] = .ok (.push 2, []) := by decide
theorem test_decode_POP : decode [0b01000110, 0b00000100] = .ok (.pop 4, []) := by decide
theorem test_decode_CALL : decode [0b01010000, 0b00000001] = .ok (.call 1, []) := by decide
theorem test_decode_RET : decode [0b00010001] = .ok (.ret, []) := by decide
theorem test_decode_JMP : decode [0b01010100, 0b00000011] = .ok (.jmp 3, []) := by decide
theorem test_decode_JEQ : decode [0b01010101, 0b00000010] = .ok (.jeq 2, []) := by decide
theorem test_decode_JNE : decode [0b01010110, 0b00000011] = .ok (.jne 3, []) := by decide
theorem test_decode_CMP : decode [0b10100111, 0b00000100, 0b00000111] = .ok (.cmp 4 7, []) := by decide
theorem test_decode_UNKNOWN : decode [0b11000000, 1, 1, 1] = .ok (.unknown 0xC0, [1, 1, 1]) := by decide
theorem test_decode_rejects_missing_bytes :
    decode [] = .error .noOpcode ∧ decode [0x47] = .error .noOperand1 ∧ decode [0x82] = .error .noOperand1 ∧
    decode [0x82, 0] = .error .noOperand2 := by decide

/-- The document's program of scenario S6, instruction by instruction (95_test_vectors.md P1). -/
theorem test_P1_bytes_encode :
    [Instr.ldi 0 8, .ldi 1 9, .mul 0 1, .prn 0, .hlt].flatMap encode =
      [0x82, 0x00, 0x08, 0x82, 0x01, 0x09, 0xA2, 0x00, 0x01, 0x47, 0x00, 0x01] := by decide

/-- The unknown opcodes of each length: 62, 57, 61 and 64 (R55's table). -/
theorem test_R55_counts :
    (List.range 4).map (fun k => ((List.range 64).filter (fun n => !isKnown (BitVec.ofNat 8 (64 * k + n)))).length) =
      [62, 57, 61, 64] := by decide

theorem test_tableWord_LDI : decodeTableWord 24 0x2A0382 = some (.ldi 3 42) := by decide
theorem test_tableWord_short_row : decodeTableWord 8 0x82 = some (.ldi 0 0) := by decide
theorem test_withFetchWord_runs_after_reset :
    (after (step (State.reset.withFetchWord 24 0x2A0382))).map (fun t => (t.reg 3, t.pc)) = some (42, 3) := by decide

/-- The widths of 00_scope.md rule R4 are those of the word types. -/
theorem test_widths : Byte = BitVec Config.xlen ∧ Byte = BitVec Config.cellBits ∧ PcWord = BitVec Config.pcBits :=
  ⟨rfl, rfl, rfl⟩

/-! ### Memory -/

theorem test_write_of_the_fill_removes_the_cell : ((cell 5 7 State.reset).mem.write 5 0) = [] := by decide
theorem test_memory_is_sorted : ((cell 5 7 (cell 9 1 State.reset)).mem) = [(5, 7), (9, 1)] := by decide

/-! ### The engine, `HLT`, unknown opcodes -/

theorem test_E1_HLT : (after (step (running State.reset 0 [0x01]))).map (fun t => (t.run, t.pc)) = some (false, 1) := by
  decide
theorem test_E2_HLT_in_the_last_cell :
    (after (step (running State.reset 254 [0x01]))).map (fun t => (t.run, t.pc, t.fault)) = some (false, 255, none) := by
  decide
theorem test_E3_fetch_past_the_end :
    (after (step (running State.reset 255 []))).map (fun t => (t.run, t.pc, t.fault)) =
      some (false, 255, some ⟨.fetchBounds, 255⟩) := by decide
theorem test_E9_UNKNOWN_reads_no_operand :
    (after (step (running State.reset 5 [0x57, 0xFF]))).map (fun t => (t.pc, t.fault)) = some (7, none) := by decide
theorem test_E10_UNKNOWN_past_the_end :
    (after (step (running State.reset 254 [0xFF]))).map (fun t => (t.pc, t.run)) = some (258, true) := by decide
theorem test_E11_second_operand_missing :
    (after (step (running (with1 0 9) 253 [0x82, 0x00]))).map (fun t => (t.pc, t.reg 0, t.fault)) =
      some (253, 9, some ⟨.operandBounds, 255⟩) := by decide
theorem test_E12_first_operand_missing :
    (after (step (running State.reset 254 [0x47]))).map (fun t => (t.pc, t.fault)) =
      some (254, some ⟨.operandBounds, 255⟩) := by decide
theorem test_E15_stopped : after (step State.reset) = some State.reset := by decide

/-! ### `LDI`, `PRN`, `MUL`, `CMP` -/

theorem test_LD1_LDI : (after (step (running (with1 3 9) 0 [0x82, 0x03, 0x2A]))).map (fun t => (t.reg 3, t.pc)) =
    some (42, 3) := by decide
theorem test_LD4_LDI : (after (step (running State.reset 0 [0x82, 0x08, 0x01]))).map (fun t => (t.fault, t.run, t.pc)) =
    some (some ⟨.regIndex, 8⟩, false, 0) := by decide
theorem test_PR1_PRN : (after (step (running (with1 5 200) 0 [0x47, 0x05]))).map (fun t => (t.out, t.pc)) =
    some ([200], 2) := by decide
theorem test_PR3_PRN : (after (step (running State.reset 0 [0x47, 0x08]))).map (fun t => (t.out, t.fault)) =
    some ([], some ⟨.regIndex, 8⟩) := by decide
theorem test_M3_MUL : (after (step (running (with2 0 255 1 255) 0 [0xA2, 0x00, 0x01]))).map (fun t => (t.reg 0, t.reg 1)) =
    some (1, 255) := by decide
theorem test_M12_MUL : (after (step (running State.reset 0 [0xA2, 0x09, 0x0A]))).map (·.fault) =
    some (some ⟨.regIndex, 9⟩) := by decide
theorem test_CM5_CMP :
    (after (step (running (flagged true false true (with2 0 9 1 5)) 0 [0xA7, 0x00, 0x01]))).map (·.flags) =
      some ⟨true, true, true⟩ := by decide
theorem test_CM8_CMP : (after (step (running (with2 0 0 1 255) 0 [0xA7, 0x00, 0x01]))).map (·.flags) =
    some ⟨true, false, false⟩ := by decide

/-! ### `PUSH`, `POP` -/

theorem test_K1_PUSH : (after (step (running (with2 7 0xF0 2 0x33) 20 [0x45, 0x02]))).map
    (fun t => (t.reg 7, t.mem.read 0xEF, t.pc)) = some (0xEF, 0x33, 22) := by decide
theorem test_K5_PUSH_R7 : (after (step (running (with1 7 0x80) 20 [0x45, 0x07]))).map
    (fun t => (t.reg 7, t.mem.read 0x7F)) = some (0x7F, 0x7F) := by decide
theorem test_K7_POP : (after (step (running (cell 0xEF 0x33 (with2 7 0xEF 4 1)) 20 [0x46, 0x04]))).map
    (fun t => (t.reg 4, t.reg 7, t.mem.read 0xEF, t.pc)) = some (0x33, 0xF0, 0x33, 22) := by decide
theorem test_K11_POP_R7 : (after (step (running (cell 0x40 0xFF (with1 7 0x40)) 20 [0x46, 0x07]))).map (·.reg 7) =
    some 0 := by decide

/-! ### `JMP`, `JEQ`, `JNE`, `CALL`, `RET` -/

theorem test_J1_JMP : (after (step (running (with1 3 12) 20 [0x54, 0x03]))).map (·.pc) = some 12 := by decide
theorem test_J2_JMP : (after (step (running (with1 3 255) 20 [0x54, 0x03]))).map (fun t => (t.pc, t.fault)) =
    some (255, none) := by decide
theorem test_J6_JEQ : (after (step (running (flagged true true false (with1 2 40)) 9 [0x55, 0x02]))).map (·.pc) =
    some 11 := by decide
theorem test_J7_JEQ : (after (step (running State.reset 9 [0x55, 0x09]))).map (·.fault) = some (some ⟨.regIndex, 9⟩) := by
  decide
theorem test_J8_JNE : (after (step (running (with1 3 12) 20 [0x56, 0x03]))).map (·.pc) = some 12 := by decide
theorem test_J9_JNE : (after (step (running (flagged true false true (with1 3 12)) 20 [0x56, 0x03]))).map (·.pc) =
    some 22 := by decide
theorem test_J11_CALL : (after (step (running (with2 7 0xF0 1 12) 9 [0x50, 0x01]))).map
    (fun t => (t.reg 7, t.mem.read 0xEF, t.pc)) = some (0xEF, 11, 12) := by decide
theorem test_J13_CALL_R7 : (after (step (running (with1 7 0x80) 4 [0x50, 0x07]))).map
    (fun t => (t.reg 7, t.mem.read 0x7F, t.pc)) = some (0x7F, 6, 0x7F) := by decide
theorem test_J16_RET : (after (step (running (cell 0xEF 11 (with2 7 0xEF 0 99)) 17 [0x11]))).map
    (fun t => (t.reg 0, t.reg 7, t.pc)) = some (11, 0xF0, 11) := by decide
theorem test_J17_RET : (after (step (running (with2 7 255 0 99) 17 [0x11]))).map (fun t => (t.reg 0, t.reg 7, t.fault)) =
    some (99, 255, some ⟨.stackReadBounds, 255⟩) := by decide

/-! ### The host -/

theorem test_host_load_then_run :
    ((hostAfter (hostStep (.load [0x01]) State.reset)).bind (fun s => hostAfter (hostStep .run s))).map
      (fun t => (t.mem.read 0, t.pc, t.run)) = some (1, 0, true) := by decide

/-! ### Hypotheses are met: one witness per statement, at boundary values, one conjunct per clause -/

/-- A running machine at 254 with `HLT` in the last cell. -/
theorem witness_HltStopsAndAdvancesByOne : let s := running State.reset 254 [0x01]
    s.run = true ∧ s.pc.toNat < 255 ∧ s.mem.read s.pc.toNat = 0x01#8 ∧ s.fault = none := by decide

theorem witness_UnknownOpcodeOnlyAdvances : let s := running State.reset 254 [0xFF]
    isKnown 0xFF = false ∧ isKnown 0x00 = false ∧ s.run = true ∧ s.pc.toNat < 255 ∧
    s.mem.read s.pc.toNat = 0xFF#8 := by decide

/-- Register operands at the two sides of the bound, for every statement with the hypotheses `op < 8` or `8 ≤ op`:
`LDI`, `PRN`, `MUL`, `CMP`, `JMP`, `JEQ`, `JNE`. -/
theorem witness_register_operand_bounds :
    (7#8).toNat < 8 ∧ 8 ≤ (8#8).toNat ∧ (0#8).toNat < 8 ∧ 8 ≤ (255#8).toNat := by decide

theorem witness_CmpSetsOneFlagAndClearsNone :
    ((with2 0 5 7 5).reg 0).toNat = ((with2 0 5 7 5).reg 7).toNat ∧
    ((with2 0 0 7 255).reg 0).toNat < ((with2 0 0 7 255).reg 7).toNat ∧
    ((with2 0 255 7 0).reg 7).toNat < ((with2 0 255 7 0).reg 0).toNat := by decide

theorem witness_PushStoresBelowTheStackPointer :
    (with1 7 1).mem.wf = true ∧ (with1 7 1).reg 7 ≠ 0#8 ∧ (with1 7 255).reg 7 ≠ 0#8 ∧ (with1 7 0).reg 7 = 0#8 ∧
    (after (exec (.push 7) (with1 7 1))).isSome = true := by decide

theorem witness_PopLoadsTheTopCell :
    (with1 7 254).reg 7 ≠ 255#8 ∧ (⟨(0#8).toNat, by decide⟩ : Fin 8) ≠ 7 ∧ (⟨(7#8).toNat, by decide⟩ : Fin 8) = 7 ∧
    (with1 7 255).reg 7 = 255#8 := by decide

theorem witness_conditional_jumps : (flagged false false true State.reset).flags.eq = true ∧
    State.reset.flags.eq = false := by decide

theorem witness_CallPushesTheReturnAddress : let s := running (with2 7 1 0 12) 253 [0x50, 0x00]
    s.mem.wf = true ∧ s.reg 7 ≠ 0#8 ∧ s.pc.toNat + 1 < 255 ∧ (with1 7 0).reg 7 = 0#8 := by decide

theorem witness_RetPopsIntoR0AndPc : (with1 7 254).reg 7 ≠ 255#8 ∧ (with1 7 255).reg 7 = 255#8 := by decide

theorem witness_EveryTableRowDecodes : isKnown 0x10 = false := by decide

theorem witness_LengthIsTheTopTwoBitsPlusOne :
    decode [0x82, 1, 2, 3] = .ok (.ldi 1 2, [3]) ∧ isKnown 0x82 = true ∧
    decode [0xC0, 1] = .ok (.unknown 0xC0, [1]) ∧ isKnown 0xC0 = false := by decide

theorem witness_DecodeAndEncodeAgree : (Instr.cmp 255 8).wf = true ∧
    decode (encode (Instr.cmp 255 8) ++ [9]) = .ok (.cmp 255 8, [9]) := by decide

theorem witness_StepExecutesTheDecodedInstruction : let s := running State.reset 252 [0x82, 0x07, 0xFF]
    s.run = true ∧ decode (s.mem.bytesFrom s.pc.toNat 4) = .ok (.ldi 7 255, []) := by decide

theorem witness_StepExecutesTheEncodedInstruction : let s := running State.reset 252 [0x82, 0x07, 0xFF]
    s.run = true ∧ (Instr.ldi 7 255).wf = true ∧ s.mem.bytesFrom s.pc.toNat 3 = encode (.ldi 7 255) := by decide

theorem witness_StoppedEngineDoesNothing : State.reset.run = false := by decide

theorem witness_OnlyPcSettersEscapeTheGenericAdvance :
    (let s := running State.reset 254 [0xFF]
     s.run = true ∧ (after (step s)).map (·.fault) = some none ∧ isPcSetter (s.mem.read s.pc.toNat) = false) ∧
    (let s := running (with1 3 255) 253 [0x54, 0x03]
     s.run = true ∧ (after (step s)).map (·.fault) = some none ∧ isPcSetter (s.mem.read s.pc.toNat) = true) ∧
    (let s := running State.reset 253 [0x55, 0x03]
     s.run = true ∧ (after (step s)).map (·.fault) = some none ∧ isPcSetter (s.mem.read s.pc.toNat) = true) := by decide

/-- For each of the five PC-setters a state in which it jumps to 255, and one in which it jumps to 254. -/
theorem witness_JumpTargetsAreCheckedOnlyAtTheFetch :
    (after (exec (.jmp 3) (running (with1 3 255) 0 []))).isSome = true ∧
    (after (exec (.jeq 3) (running (flagged false false true (with1 3 255)) 0 []))).isSome = true ∧
    (after (exec (.jne 3) (running (with1 3 255) 0 []))).isSome = true ∧
    (after (exec (.call 3) (running (with2 3 255 7 1) 0 []))).map (·.reg 3) = some 255 ∧
    (with2 3 255 7 1).reg 7 ≠ 0#8 ∧
    (after (exec .ret (running (cell 254 255 (with1 7 254)) 0 []))).isSome = true ∧
    (cell 254 255 (with1 7 254)).mem.read 254 = 255#8 ∧ (with1 7 254).reg 7 ≠ 255#8 ∧
    (after (exec (.jmp 3) (running (with1 3 254) 0 []))).map (·.pc) = some 254 := by decide

/-- A running machine without a fault, for each of the six ends of R143's list of checks. -/
theorem witness_StepLatchesTheFirstFault :
    (running State.reset 255 []).firstFault = some ⟨.fetchBounds, 255⟩ ∧
    (running State.reset 254 [0x47]).firstFault = some ⟨.operandBounds, 255⟩ ∧
    (running State.reset 252 [0xA7, 0x07, 0x08]).firstFault = some ⟨.regIndex, 8⟩ ∧
    (running (with1 7 255) 0 [0x11]).firstFault = some ⟨.stackReadBounds, 255⟩ ∧
    (running State.reset 0 [0x45, 0x07]).firstFault = some ⟨.stackWriteBounds, 255⟩ ∧
    (running State.reset 252 [0x82, 0x07, 0x08]).firstFault = none ∧
    (running State.reset 255 []).run = true ∧ (running State.reset 255 []).fault = none := by decide

theorem witness_FaultsArePrecise : let s := running State.reset 0 [0x45, 0x07]
    s.fault = none ∧ (after (step s)).map (·.fault) = some (some ⟨.stackWriteBounds, 255⟩) := by decide

/-- A faulted state, and a host operation other than reset that it does not refuse. -/
theorem witness_FaultedMachineStaysUntilReset : let s := takeFault ⟨.regIndex, 8⟩ State.reset
    s.Faulted ∧ (hostAfter (hostStep (.ramWrite 254 255) s)).isSome = true :=
  ⟨⟨rfl, _, rfl⟩, by decide⟩

theorem witness_RunEndsOnlyByHltOrFault :
    (running State.reset 254 [0x01]).run = true ∧ (running State.reset 254 [0x01]).fault = none ∧
    (after (step (running State.reset 254 [0x01]))).map (·.run) = some false ∧
    (after (step (running State.reset 255 []))).map (·.run) = some false := by decide

theorem witness_JumpToItselfRunsForever : let s := running (with1 3 253) 253 [0x54, 0x03]
    s.run = true ∧ s.mem.bytesFrom s.pc.toNat 2 = [0x54#8, 3] ∧ (s.reg 3).toNat = s.pc.toNat := by decide

/-- A running state that meets the invariant and steps, and a host operation it allows. -/
theorem witness_invariant : (running State.reset 254 [0xFF]).Inv ∧
    (after (step (running State.reset 254 [0xFF]))).isSome = true ∧ State.reset.Inv ∧
    (hostAfter (hostStep .run State.reset)).isSome = true :=
  ⟨⟨by decide, by decide, by decide, fun _ h => nomatch h⟩, by decide,
    ⟨by decide, by decide, by decide, fun _ h => nomatch h⟩, by decide⟩

theorem witness_CanonicalMemoriesThatReadAlikeAreEqual :
    (cell 254 1 (cell 0 2 State.reset)).mem.wf = true := by decide

theorem witness_FlagsAreStickyAndOnlyCmpWritesThem : let s := running (flagged true true true State.reset) 0 [0xA7, 0, 1]
    (after (step s)).isSome = true ∧ s.flags = ⟨true, true, true⟩ ∧
    (running State.reset 0 [0x01]).mem.read 0 ≠ 0xA7#8 := by decide

theorem witness_OutputIsAppendOnlyAndNeverRead :
    (after (step (running (with1 7 255) 253 [0x47, 0x07]))).map (·.out) = some [255] := by decide

theorem witness_OnlyPushAndCallWriteMemory : let s := running (with2 7 255 0 7) 0 [0x45, 0x00]
    s.mem.wf = true ∧ (after (step s)).map (·.mem.read 254) = some 7 ∧ s.mem.read 254 ≠ 7#8 := by decide

theorem witness_RegistersOutsideTheTableAreUnchanged :
    (after (exec (.pop 0) State.reset)).isSome = true ∧ writesReg (.pop 0) 6 = false := by decide

/-- A `PUSH` and a `PUSH R7` at 20 that store into the cell after themselves, and a `CALL R7` at 253, which jumps to the
return address it has stored. -/
theorem witness_StoredByteIsFetchedNext :
    (let s := running (with2 7 23 0 1) 20 [0x45, 0x00]
     s.mem.wf = true ∧ s.reg 7 ≠ 0#8 ∧ (0#8).toNat < 8 ∧
     (after (exec (.push 0) s)).map (fun t => (t.pc.toNat, t.fetchOpcode)) = some (22, .ok 1)) ∧
    (after (exec (.push 7) (running (with1 7 23) 20 []))).map (fun t => (t.pc.toNat, t.fetchOpcode)) =
      some (22, .ok 22) ∧
    (let s := running (with1 7 1) 253 [0x50, 0x07]
     s.mem.wf = true ∧ s.reg 7 ≠ 0#8 ∧ s.pc.toNat + 1 < 255 ∧
     (after (exec (.call 7) s)).map (fun t => (t.pc.toNat, t.fetchOpcode)) = some (0, .ok 255)) := by decide

theorem witness_LdiThenPrnOutputsTheValue : let s := running State.reset 250 [0x82, 7, 255, 0x47, 7]
    (7#8).toNat < 8 ∧ s.run = true ∧ s.mem.bytesFrom s.pc.toNat 5 = [0x82#8, 7, 255, 0x47, 7] := by decide

theorem witness_PushThenPopMovesTheRegister :
    (6#8).toNat < 7 ∧ (with1 7 1).mem.wf = true ∧ (with1 7 1).reg 7 ≠ 0#8 := by decide

/-- A `CALL` at the last address it can stand at, and the state after it, which the `RET` finds as the `CALL` left it. -/
theorem witness_RetResumesAfterTheCall : let s := running (with2 7 1 1 12) 253 [0x50, 0x01]
    s.mem.wf = true ∧ (1#8).toNat < 8 ∧ s.reg 7 ≠ 0#8 ∧ s.pc.toNat + 1 < 255 ∧
    (after (exec (.call 1) s)).map (fun t => (t.reg 7, t.mem.read 0)) = some (0, 255) := by decide

theorem witness_CmpDecidesTheConditionalJump :
    (with2 0 5 1 5).reg 0 = (with2 0 5 1 5).reg 1 ∧ (with2 0 5 1 6).reg 0 ≠ (with2 0 5 1 6).reg 1 ∧
    (with2 0 5 1 6).flags.eq = false := by decide

theorem witness_OnceEqualNoJneIsTaken : (flagged false false true State.reset).flags.eq = true ∧
    StepsTo 3 (flagged false false true State.reset) (flagged false false true State.reset) := ⟨by decide, rfl⟩

theorem witness_LoadWritesTheProgramFromAddressZero : State.reset.run = false ∧ State.reset.mem.wf = true ∧
    (List.replicate 255 255).length ≤ 255 ∧ (∀ v ∈ List.replicate 255 255, v < 256) ∧
    255 < (List.replicate 256 0).length ∧ (∃ v ∈ [256], 256 ≤ v) := by
  refine ⟨rfl, rfl, ?_, ?_, ?_, by decide⟩ <;> simp only [List.length_replicate, List.mem_replicate] <;> omega

theorem witness_RunStartsOnlyAnUnfaultedMachine : State.reset.run = false ∧ State.reset.fault = none ∧
    (takeFault ⟨.regIndex, 8⟩ State.reset).fault ≠ none ∧ (takeFault ⟨.regIndex, 8⟩ State.reset).run = false ∧
    (running State.reset 0 []).run = true ∧ (after (step (State.reset.setRun true))).map (·.run) = some true ∧
    (after (step ((cell 0 1 State.reset).setRun true))).map (·.run) = some false := by decide

/-- A run of one `HLT`, observed after its step. -/
theorem witness_HostObservesTheStatus : let s := cell 0 1 State.reset
    hostAfter (hostStep .run s) = some (s.setRun true) ∧
    (after (step (s.setRun true))).map (·.run) = some false := by decide

theorem witness_RamReadAndRamWriteReachOneCell : (cell 254 7 State.reset).run = false ∧
    (cell 254 7 State.reset).mem.wf = true ∧ 254 < 255 ∧ 255 < 256 ∧ 255 ≤ 255 ∧ 256 ≤ 256 ∧
    (hostAfter (hostStep (.ramWrite 254 255) (cell 254 7 State.reset))).map (·.mem.read 254) = some 255 := by decide

theorem witness_HostIsSilentWhileRunning : (running State.reset 0 []).run = true := by decide

theorem witness_BootRunsFromAddressZero : [1, 255].length ≤ 254 ∧ 254 < 255 ∧ ∀ v ∈ [1, 255], v < 256 := by decide

theorem witness_StackFromReset : (0#8).toNat < 7 ∧ (6#8).toNat < 7 := by decide

/-- Two states that differ only in LT and GT, a host operation both accept, and a `CMP` of each strict relation. -/
theorem witness_LtAndGtAreNeverRead : let s := running (flagged false true true State.reset) 0 [0xA7, 0, 1]
    running (flagged true false true State.reset) 0 [0xA7, 0, 1] =
      { s with flags := { s.flags with lt := true, gt := false } } ∧
    (hostAfter (hostStep (.ramWrite 254 255) (flagged false true true State.reset))).isSome = true ∧
    ((with2 0 1 7 255).reg 0).toNat < ((with2 0 1 7 255).reg 7).toNat := by decide

theorem witness_DecodingFailsOnlyWhereBytesEnd : decode [0x82, 1, 2] = .ok (.ldi 1 2, []) ∧ isKnown 0x82 = true ∧
    decode [0xFF] = .ok (.unknown 0xFF, []) ∧ isKnown 0xFF = false := by decide

end Sys2Proof.Tests
end

section
/-! SUPPORT. Decoding inverted: bytes that decode to an instruction begin with its encoding, and so do the bytes in
memory that a fetch reads. -/

namespace Sys2Proof

/-- An answer of the decoder to `opc :: bytes` that, where it is an instruction, accounts for every byte: the
instruction's encoding, then the rest. -/
def AccountsFor (opc : Byte) (bytes : List Byte) (answer : Except DecodeError (Instr × List Byte)) : Prop :=
  ∀ i rest, answer = .ok (i, rest) → opc :: bytes = encode i ++ rest

theorem decodeZ_accountsFor {i : Instr} {opc : Byte} (he : encode i = [opc]) (bytes : List Byte) :
    AccountsFor opc bytes (decodeZ i bytes) := by
  intro j rest h
  cases h
  simp [he]

theorem decodeR_accountsFor {mk : Byte → Instr} {opc : Byte} (he : ∀ a, encode (mk a) = [opc, a]) (bytes : List Byte) :
    AccountsFor opc bytes (decodeR mk bytes) := by
  intro j rest h
  match bytes with
  | [] => cases h
  | a :: bytes =>
    cases h
    simp [he]

theorem decodeRR_accountsFor {mk : Byte → Byte → Instr} {opc : Byte} (he : ∀ a b, encode (mk a b) = [opc, a, b])
    (bytes : List Byte) : AccountsFor opc bytes (decodeRR mk bytes) := by
  intro j rest h
  match bytes with
  | [] | [_] => cases h
  | a :: b :: bytes =>
    cases h
    simp [he]

/-- One row of the decoder's match: the answer for the row's own opcode, or the answer of the rows below. -/
theorem ite_accountsFor {opc row : Byte} {bytes : List Byte} {x y : Except DecodeError (Instr × List Byte)}
    (hx : AccountsFor row bytes x) (hy : AccountsFor opc bytes y) : AccountsFor opc bytes (if opc = row then x else y) := by
  split
  · next e => exact e ▸ hx
  · exact hy

/-- Every row of the opcode table accounts for its bytes (30_encoding.md rules R51, R54, R55). -/
theorem decodeOpcode_accountsFor (opc : Byte) (bytes : List Byte) :
    AccountsFor opc bytes (decodeOpcode opc bytes) :=
  ite_accountsFor (decodeZ_accountsFor rfl bytes) <|
  ite_accountsFor (decodeRR_accountsFor (fun _ _ => rfl) bytes) <|
  ite_accountsFor (decodeR_accountsFor (fun _ => rfl) bytes) <|
  ite_accountsFor (decodeRR_accountsFor (fun _ _ => rfl) bytes) <|
  ite_accountsFor (decodeR_accountsFor (fun _ => rfl) bytes) <|
  ite_accountsFor (decodeR_accountsFor (fun _ => rfl) bytes) <|
  ite_accountsFor (decodeR_accountsFor (fun _ => rfl) bytes) <|
  ite_accountsFor (decodeZ_accountsFor rfl bytes) <|
  ite_accountsFor (decodeR_accountsFor (fun _ => rfl) bytes) <|
  ite_accountsFor (decodeR_accountsFor (fun _ => rfl) bytes) <|
  ite_accountsFor (decodeR_accountsFor (fun _ => rfl) bytes) <|
  ite_accountsFor (decodeRR_accountsFor (fun _ _ => rfl) bytes) <|
  decodeZ_accountsFor rfl bytes

/-- The decoder takes exactly the bytes the encoder writes. -/
theorem encode_append_of_decode {bytes rest : List Byte} {i : Instr} (h : decode bytes = .ok (i, rest)) :
    bytes = encode i ++ rest := by
  cases bytes with
  | nil => cases h
  | cons opc bytes => exact decodeOpcode_accountsFor opc bytes i rest h

end Sys2Proof

namespace Sys2Proof.Machine

/-- Bytes that head those from an address on stand in memory there. -/
theorem Memory.holds_of_bytesFrom {m : Memory} {bytes rest : List Byte} {a n : Nat}
    (h : m.bytesFrom a n = bytes ++ rest) : m.Holds a bytes := by
  induction bytes generalizing a n with
  | nil => exact Memory.holds_nil m a
  | cons b bytes ih =>
    cases n with
    | zero => cases h
    | succ n =>
      rw [Memory.bytesFrom_succ] at h
      split at h
      · obtain ⟨hb, hrest⟩ := List.cons.inj h
        exact (Memory.holds_cons ..).mpr ⟨‹_›, hb, ih hrest⟩
      · cases h

/-- A fetched instruction's encoding stands in memory at `pc`. -/
theorem State.holds_of_fetchInstr {s : State} {i : Instr} (h : s.fetchInstr = .ok i) :
    s.mem.Holds s.pc.toNat (encode i) := by
  rcases s.fetchInstr_cases with ⟨j, rest, hd, hf⟩ | ⟨-, hf⟩ | ⟨-, hf⟩ | ⟨-, hf⟩ <;> rw [hf] at h <;> cases h
  exact Memory.holds_of_bytesFrom (encode_append_of_decode hd)

end Sys2Proof.Machine
end

section
/-! SUPPORT. `State.withOut`: the same state with another output sequence. No operation of the engine but `emit` reads or
writes `OUT` (10_state.md rule R20), so each one commutes with it. -/

namespace Sys2Proof.Machine

/-- The state with `OUT` replaced. -/
def State.withOut (s : State) (o : List RegWord) : State := { s with out := o }

@[simp] theorem State.out_withOut (s : State) (o : List RegWord) : (s.withOut o).out = o := rfl
@[simp] theorem State.run_withOut (s : State) (o : List RegWord) : (s.withOut o).run = s.run := rfl
@[simp] theorem State.fault_withOut (s : State) (o : List RegWord) : (s.withOut o).fault = s.fault := rfl
@[simp] theorem State.pc_withOut (s : State) (o : List RegWord) : (s.withOut o).pc = s.pc := rfl
@[simp] theorem State.flags_withOut (s : State) (o : List RegWord) : (s.withOut o).flags = s.flags := rfl
@[simp] theorem State.mem_withOut (s : State) (o : List RegWord) : (s.withOut o).mem = s.mem := rfl
@[simp] theorem State.reg_withOut (s : State) (o : List RegWord) (j : Fin Config.nregs) :
    (s.withOut o).reg j = s.reg j := rfl
@[simp] theorem State.withOut_self (s : State) : s.withOut s.out = s := rfl

/-! ### What reads a state answers the same -/

@[simp] theorem State.pushAddr_withOut (s : State) (o : List RegWord) : (s.withOut o).pushAddr = s.pushAddr := rfl
@[simp] theorem State.returnAddr_withOut (s : State) (o : List RegWord) : (s.withOut o).returnAddr = s.returnAddr := rfl
@[simp] theorem State.fetchInstr_withOut (s : State) (o : List RegWord) : (s.withOut o).fetchInstr = s.fetchInstr := rfl
@[simp] theorem State.stackRead_withOut (s : State) (o : List RegWord) (a : RegWord) :
    (s.withOut o).stackRead a = s.stackRead a := rfl

/-! ### What writes a state writes the same -/

@[simp] theorem State.setReg_withOut (s : State) (o : List RegWord) (i : Fin Config.nregs) (v : RegWord) :
    (s.withOut o).setReg i v = (s.setReg i v).withOut o := rfl
@[simp] theorem State.advance_withOut (s : State) (o : List RegWord) (n : Nat) :
    (s.withOut o).advance n = (s.advance n).withOut o := rfl
@[simp] theorem State.jump_withOut (s : State) (o : List RegWord) (v : RegWord) :
    (s.withOut o).jump v = (s.jump v).withOut o := rfl
@[simp] theorem State.setFlags_withOut (s : State) (o : List RegWord) (f : Flags) :
    (s.withOut o).setFlags f = (s.setFlags f).withOut o := rfl
@[simp] theorem State.setRun_withOut (s : State) (o : List RegWord) (b : Bool) :
    (s.withOut o).setRun b = (s.setRun b).withOut o := rfl
@[simp] theorem State.decSp_withOut (s : State) (o : List RegWord) : (s.withOut o).decSp = s.decSp.withOut o := rfl
@[simp] theorem State.incSp_withOut (s : State) (o : List RegWord) : (s.withOut o).incSp = s.incSp.withOut o := rfl
@[simp] theorem State.emit_withOut (s : State) (o : List RegWord) (v : RegWord) :
    (s.withOut o).emit v = (s.emit v).withOut (o ++ [v]) := rfl
@[simp] theorem takeFault_withOut (s : State) (o : List RegWord) (f : FaultRecord) :
    takeFault f (s.withOut o) = (takeFault f s).withOut o := rfl

@[simp] theorem State.stackWrite_withOut (s : State) (o : List RegWord) (a : RegWord) (v : Byte) :
    (s.withOut o).stackWrite a v = (State.withOut · o) <$> s.stackWrite a v := by
  rcases s.stackWrite_cases a v with ⟨ha, e⟩ | ⟨rfl, e⟩
  · rw [e, State.stackWrite_ok _ v ha]; rfl
  · rfl

/-- An instruction whose own computation commutes with replacing `OUT` does so as a whole: a fault it takes does. -/
theorem conclude_withOut {s t : State} {r r' : Attempt State} {o : List RegWord}
    (hr : r' = (State.withOut · o) <$> r) (h : conclude s r = .next t) :
    conclude (s.withOut o) r' = .next (t.withOut o) := by
  subst hr
  rcases conclude_cases h with rfl | ⟨f, rfl, rfl⟩ <;> rfl

/-- Every instruction but `PRN` does the same whatever `OUT` holds, and leaves it as it is. -/
theorem exec_withOut {i : Instr} {s t : State} (hi : ∀ op1, i ≠ .prn op1) (h : exec i s = .next t)
    (o : List RegWord) : exec i (s.withOut o) = .next (t.withOut o) := by
  cases i with
  | hlt => cases h; rfl
  | ldi op1 op2 => exact conclude_withOut (by simp) h
  | prn op1 => exact absurd rfl (hi op1)
  | mul op1 op2 => exact conclude_withOut (by simp) h
  | push op1 => exact conclude_withOut (by simp) h
  | pop op1 => exact conclude_withOut (by simp) h
  | call op1 => exact conclude_withOut (by simp) h
  | ret => exact conclude_withOut (by simp) h
  | jmp op1 => exact conclude_withOut (by simp) h
  | jeq op1 => exact conclude_withOut (by cases hq : s.flags.eq <;> simp [hq]) h
  | jne op1 => exact conclude_withOut (by cases hq : s.flags.eq <;> simp [hq]) h
  | cmp op1 op2 => exact conclude_withOut (by simp) h
  | unknown opc => cases h; rfl

end Sys2Proof.Machine
end

section
/-! Reset and `OUT` (10_state.md rules R20, R22). -/

namespace Sys2Proof.Machine

/-- The memory after reset holds `MEM_INIT`, cell by cell. -/
theorem State.read_resetWith (memInit : Vector Byte Config.memSize) (a : Nat) (h : a < Config.memSize) :
    (State.resetWith memInit).mem.read a = memInit[a] := by
  have hlen : a < memInit.toList.length := by simpa using h
  exact (Memory.read_writeBytes memInit.toList [] 0 a rfl h).trans (by simp [List.getElem?_eq_getElem hlen])

theorem State.reg_resetWith (memInit : Vector Byte Config.memSize) (j : Fin Config.nregs) :
    (State.resetWith memInit).reg j = 0 := State.reg_reset j

/-- Settles O33: the host's reset answers `State.resetWith memInit` in every state, and its fields are R22's rows. -/
theorem resetValues : Obligations.ResetValues := fun memInit _ =>
  ⟨State.resetWith memInit, rfl, State.reg_resetWith memInit, rfl, rfl, rfl, rfl, rfl, rfl, State.read_resetWith memInit⟩

/-- What an instruction appends to `OUT`: nothing, or for a `PRN` the register it names; and it appends the same and does
the same whatever `OUT` holds. -/
theorem exec_appends {i : Instr} {s t : State} (h : exec i s = .next t) :
    ∃ new : List RegWord,
      (new ≠ [] → ∃ (op1 : Byte) (hr : op1.toNat < 8), i = .prn op1 ∧ new = [s.reg ⟨op1.toNat, hr⟩]) ∧
      ∀ o, exec i (s.withOut o) = .next (t.withOut (o ++ new)) := by
  by_cases hi : ∃ op1, i = .prn op1
  · obtain ⟨op1, rfl⟩ := hi
    rcases exec_prn_cases op1 s with ⟨hr, e⟩ | ⟨hr, e⟩ <;> cases e.symm.trans h
    · refine ⟨[s.reg ⟨op1.toNat, hr⟩], fun _ => ⟨op1, hr, rfl, rfl⟩, fun o => ?_⟩
      simp [exec, execPrn, regOperand_legal hr]
    · refine ⟨[], fun hne => absurd rfl hne, fun o => ?_⟩
      simp [exec, execPrn, regOperand_illegal hr]
  · exact ⟨[], fun hne => absurd rfl hne, fun o => by simpa using exec_withOut (fun op1 e => hi ⟨op1, e⟩) h o⟩

/-- The same of a step: idle steps and fetch faults append nothing, and what is fetched does not depend on `OUT`. -/
theorem step_appends {s t : State} (h : step s = .next t) :
    ∃ new : List RegWord,
      (new ≠ [] → ∃ (op1 : Byte) (hr : op1.toNat < 8), s.fetchInstr = .ok (.prn op1) ∧
        new = [s.reg ⟨op1.toNat, hr⟩]) ∧
      ∀ o, step (s.withOut o) = .next (t.withOut (o ++ new)) := by
  rcases step_cases s with ⟨hrun, e⟩ | ⟨hrun, f, hf, e⟩ | ⟨hrun, i, hf, e⟩
  · cases e.symm.trans h
    exact ⟨[], fun hne => absurd rfl hne, fun o => by simpa using step_stopped (s := s.withOut o) hrun⟩
  · cases e.symm.trans h
    exact ⟨[], fun hne => absurd rfl hne, fun o => by simpa using step_fetchFault (s := s.withOut o) hrun hf⟩
  · obtain ⟨new, hprn, happ⟩ := exec_appends (e.symm.trans h)
    refine ⟨new, fun hne => ?_, fun o => (step_fetched (s := s.withOut o) hrun hf).trans (happ o)⟩
    obtain ⟨op1, hr, rfl, hnew⟩ := hprn hne
    exact ⟨op1, hr, hf, hnew⟩

/-- A fetched `PRN` stands in memory at `pc`: its opcode byte, then its operand. -/
theorem State.read_of_fetchInstr_prn {s : State} {op1 : Byte} (h : s.fetchInstr = .ok (.prn op1)) :
    s.mem.read s.pc.toNat = 0x47#8 ∧ s.mem.read (s.pc.toNat + 1) = op1 := by
  obtain ⟨-, hopc, hrest⟩ := (Memory.holds_cons ..).mp (State.holds_of_fetchInstr h)
  obtain ⟨-, hop1, -⟩ := (Memory.holds_cons ..).mp hrest
  exact ⟨hopc, hop1⟩

/-- Settles O38: a step's effect commutes with replacing `OUT`, up to what it appends; taken at the machine's own `OUT`,
this is what the step itself appends. -/
theorem outputIsAppendOnlyAndNeverRead : Obligations.OutputIsAppendOnlyAndNeverRead := by
  refine ⟨fun _ => rfl, fun s t h => ?_⟩
  obtain ⟨new, hprn, happ⟩ := step_appends h
  refine ⟨new, ?_, fun hne => ?_, happ⟩
  · have hself : t = t.withOut (s.out ++ new) := Host.Outcome.next.inj (h.symm.trans (happ s.out))
    exact congrArg State.out hself
  · obtain ⟨op1, hr, hf, hnew⟩ := hprn hne
    obtain ⟨hopc, rfl⟩ := State.read_of_fetchInstr_prn hf
    exact ⟨hopc, hr, hnew⟩

end Sys2Proof.Machine
end

section
/-! The opcode table (30_encoding.md rules R54, R55). -/

namespace Sys2Proof

theorem isPcSetter_iff (opc : Byte) : isPcSetter opc = true ↔ opc ∈ pcSetters := by
  simp [isPcSetter]

/-- The PC-setters are rows of the table. -/
theorem isKnown_of_isPcSetter {opc : Byte} (h : isPcSetter opc = true) : isKnown opc = true :=
  have hsub : ∀ o ∈ pcSetters, o ∈ knownOpcodes := by decide
  (isKnown_iff opc).mpr (hsub opc ((isPcSetter_iff opc).mp h))

/-- Settles O14: the match of a row's own byte evaluates to the row's instruction, whatever bytes follow; every other
byte reaches the last row. -/
theorem everyTableRowDecodes : Obligations.EveryTableRowDecodes := fun _ _ rest =>
  ⟨rfl, rfl, rfl, rfl, rfl, rfl, rfl, rfl, rfl, rfl, rfl, rfl, by decide, rfl, rfl, rfl,
    fun _ hk => decodeOpcode_unknown hk rest⟩

/-! ### What is decoded is well formed -/

theorem decodeZ_wf {i j : Instr} {bytes rest : List Byte} (hi : i.wf = true) (h : decodeZ i bytes = .ok (j, rest)) :
    j.wf = true := by
  cases h
  exact hi

theorem decodeR_wf {mk : Byte → Instr} {j : Instr} {bytes rest : List Byte} (hmk : ∀ a, (mk a).wf = true)
    (h : decodeR mk bytes = .ok (j, rest)) : j.wf = true := by
  match bytes with
  | [] => cases h
  | a :: bytes =>
    cases h
    exact hmk a

theorem decodeRR_wf {mk : Byte → Byte → Instr} {j : Instr} {bytes rest : List Byte} (hmk : ∀ a b, (mk a b).wf = true)
    (h : decodeRR mk bytes = .ok (j, rest)) : j.wf = true := by
  match bytes with
  | [] | [_] => cases h
  | a :: b :: bytes =>
    cases h
    exact hmk a b

/-- A known opcode never decodes to the fallback row's instruction, and an unknown one to no other. -/
theorem decodeOpcode_wf {opc : Byte} {bytes rest : List Byte} {i : Instr}
    (h : decodeOpcode opc bytes = .ok (i, rest)) : i.wf = true := by
  cases hk : isKnown opc with
  | false =>
    cases (decodeOpcode_unknown hk bytes).symm.trans h
    simp [Instr.wf, hk]
  | true =>
    have hmem := (isKnown_iff opc).mp hk
    simp only [knownOpcodes, List.mem_cons, List.not_mem_nil, or_false] at hmem
    rcases hmem with rfl | rfl | rfl | rfl | rfl | rfl | rfl | rfl | rfl | rfl | rfl | rfl
    · exact decodeZ_wf (i := .hlt) rfl h
    · exact decodeRR_wf (mk := .ldi) (fun _ _ => rfl) h
    · exact decodeR_wf (mk := .prn) (fun _ => rfl) h
    · exact decodeRR_wf (mk := .mul) (fun _ _ => rfl) h
    · exact decodeR_wf (mk := .push) (fun _ => rfl) h
    · exact decodeR_wf (mk := .pop) (fun _ => rfl) h
    · exact decodeR_wf (mk := .call) (fun _ => rfl) h
    · exact decodeZ_wf (i := .ret) rfl h
    · exact decodeR_wf (mk := .jmp) (fun _ => rfl) h
    · exact decodeR_wf (mk := .jeq) (fun _ => rfl) h
    · exact decodeR_wf (mk := .jne) (fun _ => rfl) h
    · exact decodeRR_wf (mk := .cmp) (fun _ _ => rfl) h

theorem wf_of_decode {bytes rest : List Byte} {i : Instr} (h : decode bytes = .ok (i, rest)) : i.wf = true := by
  cases bytes with
  | nil => cases h
  | cons opc bytes => exact decodeOpcode_wf h

end Sys2Proof
end

section
/-! The program counter after an instruction: the generic advance, or the value a PC-setter gives it (30_encoding.md rule
R56; 43_control_flow.md rules R110 to R115). -/

namespace Sys2Proof.Machine

/-- A fetched instruction is well formed, and its opcode is the byte at `pc`, inside memory. -/
theorem State.opcode_of_fetchInstr {s : State} {i : Instr} (h : s.fetchInstr = .ok i) :
    i.wf = true ∧ s.pc.toNat < 255 ∧ s.mem.read s.pc.toNat = i.opcode := by
  obtain ⟨hpc, hopc, -⟩ := (Memory.holds_cons ..).mp (State.holds_of_fetchInstr h)
  refine ⟨?_, hpc, hopc⟩
  rcases s.fetchInstr_cases with ⟨j, rest, hd, hf⟩ | ⟨-, hf⟩ | ⟨-, hf⟩ | ⟨-, hf⟩ <;> rw [hf] at h <;> cases h
  exact wf_of_decode hd

/-- A step without a fault of a running machine executes the instruction it fetched. -/
theorem step_unfaulted {s t : State} (hrun : s.run = true) (h : step s = .next t) (hf : t.fault = none) :
    ∃ i, s.fetchInstr = .ok i ∧ exec i s = .next t := by
  rcases step_cases s with ⟨hstop, -⟩ | ⟨-, f, -, e⟩ | ⟨-, i, hi, e⟩
  · cases hstop.symm.trans hrun
  · cases e.symm.trans h
    cases hf
  · exact ⟨i, hi, e.symm.trans h⟩

/-- The generic advance from an address inside memory does not wrap (40_engine_cycle.md rule R74). -/
theorem pc_add_opcodeLength_toNat {pc : PcWord} (h : pc.toNat < 255) (opc : Byte) :
    (pc + BitVec.ofNat Config.pcBits (opcodeLength opc)).toNat = pc.toNat + opc.toNat / 64 + 1 := by
  have hopc := byte_toNat_lt opc
  simp only [opcodeLength_eq, BitVec.toNat_add, BitVec.toNat_ofNat, Config.pcBits]
  omega

/-- `t.pc` is `s.pc` after the generic advance by the length of `opc`. -/
def AdvancedBy (opc : Byte) (s t : State) : Prop :=
  t.pc = s.pc + BitVec.ofNat Config.pcBits (opcodeLength opc)

/-- The length an opcode announces is the length of the instruction's encoding. -/
theorem advancedBy_advance {i : Instr} {s u : State} {n : Nat} (hlaw : Laws.Encoding.Statement i) (hwf : i.wf = true)
    (hk : isKnown i.opcode = true) (hpc : u.pc = s.pc) (hn : (encode i).length = n) :
    AdvancedBy i.opcode s (u.advance n) := by
  obtain ⟨-, hlen⟩ := hlaw
  simp [AdvancedBy, hpc, ← hn, hlen hk hwf]

/-- `t.pc` is the value of one of `t`'s registers, zero-extended. -/
def AtRegister (t : State) : Prop := ∃ j, t.pc = zext9 (t.reg j)

/-- Where a well-formed instruction that takes no fault leaves `pc`: past its own bytes (of the PC-setters only `JEQ` and
`JNE` do this, when they do not jump), or, for a PC-setter, at a register's value. -/
theorem exec_pc_cases {i : Instr} {s t : State} (hwf : i.wf = true) (h : exec i s = .next t) (hf : t.fault = none) :
    (AdvancedBy i.opcode s t ∧ (isPcSetter i.opcode = true → i.opcode = 0x55#8 ∨ i.opcode = 0x56#8)) ∨
    (isPcSetter i.opcode = true ∧ AtRegister t) := by
  cases i with
  | hlt =>
    cases h
    exact .inl ⟨rfl, nofun⟩
  | ldi op1 op2 =>
    rcases exec_ldi_cases op1 op2 s with ⟨_, e⟩ | ⟨-, e⟩ <;> cases e.symm.trans h
    · exact .inl ⟨advancedBy_advance (Laws.Encoding.ldi op1 op2) hwf rfl rfl rfl, nofun⟩
    · cases hf
  | prn op1 =>
    rcases exec_prn_cases op1 s with ⟨_, e⟩ | ⟨-, e⟩ <;> cases e.symm.trans h
    · exact .inl ⟨advancedBy_advance (Laws.Encoding.prn op1) hwf rfl rfl rfl, nofun⟩
    · cases hf
  | mul op1 op2 =>
    rcases exec_mul_cases op1 op2 s with ⟨_, _, e⟩ | ⟨-, e⟩ | ⟨-, -, e⟩ <;> cases e.symm.trans h
    · exact .inl ⟨advancedBy_advance (Laws.Encoding.mul op1 op2) hwf rfl rfl rfl, nofun⟩
    · cases hf
    · cases hf
  | push op1 =>
    rcases exec_push_cases op1 s with ⟨_, -, e⟩ | ⟨-, -, e⟩ | ⟨-, e⟩ <;> cases e.symm.trans h
    · exact .inl ⟨advancedBy_advance (Laws.Encoding.push op1) hwf rfl rfl rfl, nofun⟩
    · cases hf
    · cases hf
  | pop op1 =>
    rcases exec_pop_cases op1 s with ⟨_, -, e⟩ | ⟨-, -, e⟩ | ⟨-, e⟩ <;> cases e.symm.trans h
    · exact .inl ⟨advancedBy_advance (Laws.Encoding.pop op1) hwf rfl rfl rfl, nofun⟩
    · cases hf
    · cases hf
  | call op1 =>
    rcases exec_call_cases op1 s with ⟨hr, -, e⟩ | ⟨-, -, e⟩ | ⟨-, e⟩ <;> cases e.symm.trans h
    · exact .inr ⟨rfl, ⟨op1.toNat, hr⟩, rfl⟩
    · cases hf
    · cases hf
  | ret =>
    rcases exec_ret_cases s with ⟨-, e⟩ | ⟨-, e⟩ <;> cases e.symm.trans h
    · exact .inr ⟨rfl, 0, by simp⟩
    · cases hf
  | jmp op1 =>
    rcases exec_jmp_cases op1 s with ⟨hr, e⟩ | ⟨-, e⟩ <;> cases e.symm.trans h
    · exact .inr ⟨rfl, ⟨op1.toNat, hr⟩, rfl⟩
    · cases hf
  | jeq op1 =>
    rcases exec_jeq_cases op1 s with ⟨hr, e⟩ | ⟨-, e⟩ <;> cases e.symm.trans h
    · cases s.flags.eq with
      | true => exact .inr ⟨rfl, ⟨op1.toNat, hr⟩, rfl⟩
      | false => exact .inl ⟨advancedBy_advance (Laws.Encoding.jeq op1) hwf rfl rfl rfl, fun _ => .inl rfl⟩
    · cases hf
  | jne op1 =>
    rcases exec_jne_cases op1 s with ⟨hr, e⟩ | ⟨-, e⟩ <;> cases e.symm.trans h
    · cases s.flags.eq with
      | true => exact .inl ⟨advancedBy_advance (Laws.Encoding.jne op1) hwf rfl rfl rfl, fun _ => .inr rfl⟩
      | false => exact .inr ⟨rfl, ⟨op1.toNat, hr⟩, rfl⟩
    · cases hf
  | cmp op1 op2 =>
    rcases exec_cmp_cases op1 op2 s with ⟨_, _, e⟩ | ⟨-, e⟩ | ⟨-, -, e⟩ <;> cases e.symm.trans h
    · exact .inl ⟨advancedBy_advance (Laws.Encoding.cmp op1 op2) hwf rfl rfl rfl, nofun⟩
    · cases hf
    · cases hf
  | unknown opc =>
    cases h
    refine .inl ⟨rfl, fun hset => ?_⟩
    have hunknown : isKnown opc = false := by simpa [Instr.wf] using hwf
    cases (isKnown_of_isPcSetter hset).symm.trans hunknown

/-- Settles O23: the byte at `pc` is the opcode of the instruction the step executes, and `exec_pc_cases` says where that
instruction leaves `pc`; a `JEQ` or `JNE` not taken advances by its length, 2. -/
theorem onlyPcSettersEscapeTheGenericAdvance : Obligations.OnlyPcSettersEscapeTheGenericAdvance := by
  refine ⟨fun opc => by simp [isPcSetter_iff, pcSetters], fun s t hrun hstep hf => ?_⟩
  obtain ⟨i, hi, hexec⟩ := step_unfaulted hrun hstep hf
  obtain ⟨hwf, hpc, hopc⟩ := State.opcode_of_fetchInstr hi
  rw [hopc]
  rcases exec_pc_cases hwf hexec hf with ⟨hadv, hjump⟩ | ⟨hset, j, hj⟩
  · have hnum : t.pc.toNat = s.pc.toNat + i.opcode.toNat / 64 + 1 := by
      rw [hadv, pc_add_opcodeLength_toNat hpc]
    refine ⟨fun _ => hnum, fun hset => .inr ⟨hjump hset, ?_⟩⟩
    rcases hjump hset with e | e <;> rw [hnum, e] <;> rfl
  · refine ⟨fun hnot => ?_, fun _ => .inl ⟨j, by rw [hj, zext9_toNat]⟩⟩
    cases hset.symm.trans hnot

end Sys2Proof.Machine
end

section
/-! `HLT` and the unknown opcodes: instructions decoded from the opcode byte alone (40_engine_cycle.md rules R75, R76). -/

namespace Sys2Proof.Machine

/-- Where the opcode byte at `pc` decodes to `i` whatever follows it, a running machine executes `i`, at the last
address too. -/
theorem step_of_decode_opcode {s : State} {opc : Byte} {i : Instr}
    (hd : ∀ rest, decode (opc :: rest) = .ok (i, rest)) (hrun : s.run = true) (hpc : s.pc.toNat < 255)
    (hopc : s.mem.read s.pc.toNat = opc) : step s = exec i s := by
  have hfetch : s.fetchInstr = .ok i := by
    simp [State.fetchInstr, State.fetchBytes_head hpc, hopc, hd]
  exact step_fetched hrun hfetch

/-- In a stopped machine without a fault the host's `run` sets `RUN`, and nothing else (50_host_interface.md rule
R132). -/
theorem hostStep_run_unfaulted {s : State} (hrun : s.run = false) (hf : s.fault = none) :
    hostStep .run s = .next (s.setRun true, .done) := by
  simp [hostStep, whenStopped, hostRun, hrun, hf]

/-- Settles O1: `HLT` answers the stopped state one address on, which the host's `run` can start again. -/
theorem hltStopsAndAdvancesByOne : Obligations.HltStopsAndAdvancesByOne := by
  have hdecode (rest : List Byte) : decode (0b00000001#8 :: rest) = .ok (.hlt, rest) := rfl
  refine ⟨hdecode, fun s => ⟨⟨(s.setRun false).advance 1, exec_hlt s, rfl, rfl, rfl, fun _ => rfl, fun _ => rfl, rfl,
    rfl, fun hf => ?_⟩, step_of_decode_opcode hdecode⟩⟩
  exact hostStep_run_unfaulted rfl hf

/-- Settles O2: an unknown opcode is the generic advance, which does not wrap below address 255. -/
theorem unknownOpcodeOnlyAdvances : Obligations.UnknownOpcodeOnlyAdvances := by
  intro opc hk
  have hdecode : ∀ rest, decode (opc :: rest) = .ok (.unknown opc, rest) := decodeOpcode_unknown hk
  refine ⟨hdecode, fun s => ⟨⟨s.advance (opcodeLength opc), exec_unknown opc s, ?_, ?_, fun _ => rfl, fun _ => rfl,
    rfl, rfl, rfl, rfl⟩, step_of_decode_opcode hdecode⟩⟩
  · rw [State.pc_advance, opcodeLength_eq]
  · exact fun hpc => pc_add_opcodeLength_toNat hpc opc

end Sys2Proof.Machine
end

section
/-! `LDI`, `PRN`, `MUL` and `CMP` (41_data_compare.md rules R90 to R95). -/

namespace Sys2Proof.Machine

/-- Taking a fault writes `FAULT` and `RUN` alone (60_exceptions.md rules R141, R144). -/
theorem faultsWith_of_exec {i : Instr} {s : State} {f : FaultRecord} (h : exec i s = .next (takeFault f s)) :
    FaultsWith i s f :=
  ⟨takeFault f s, h, rfl, rfl, fun _ => rfl, fun _ => rfl, rfl, rfl, rfl⟩

theorem sameRegsBut_setReg_advance (s : State) (i : Fin Config.nregs) (v : RegWord) (n : Nat) :
    SameRegsBut i s ((s.setReg i v).advance n) := by
  intro j hj
  simp [hj]

/-- Settles O3: what `exec_ldi_cases` answers for a legal and for an illegal register. -/
theorem ldiLoadsTheImmediate : Obligations.LdiLoadsTheImmediate := by
  refine fun op1 op2 => ⟨fun _ => rfl, fun s => ?_⟩
  rcases exec_ldi_cases op1 op2 s with ⟨hr, e⟩ | ⟨hr, e⟩
  · exact ⟨fun _ => ⟨_, e, by simp, sameRegsBut_setReg_advance _ _ _ _, rfl, fun _ => rfl, rfl, rfl, rfl, rfl⟩,
      fun _ => by omega⟩
  · exact ⟨fun _ => by omega, fun _ => faultsWith_of_exec e⟩

/-- Settles O4: what `exec_prn_cases` answers for a legal and for an illegal register. -/
theorem prnAppendsTheRegister : Obligations.PrnAppendsTheRegister := by
  refine fun op1 => ⟨fun _ => rfl, fun s => ?_⟩
  rcases exec_prn_cases op1 s with ⟨hr, e⟩ | ⟨hr, e⟩
  · exact ⟨fun _ => ⟨_, e, rfl, fun _ => rfl, rfl, fun _ => rfl, rfl, rfl, rfl⟩, fun _ => by omega⟩
  · exact ⟨fun _ => by omega, fun _ => faultsWith_of_exec e⟩

/-- Settles O5: `exec_mul_cases` has one answer for two legal registers, and one for the first illegal one; the product
of two words is the product of their values modulo 256 (R94). -/
theorem mulKeepsTheLowByteOfTheProduct : Obligations.MulKeepsTheLowByteOfTheProduct := by
  refine fun op1 op2 => ⟨fun _ => rfl, fun s => ?_⟩
  rcases exec_mul_cases op1 op2 s with ⟨h1, h2, e⟩ | ⟨h1, e⟩ | ⟨h1, h2, e⟩
  · exact ⟨fun _ _ => ⟨_, e, by simp [BitVec.toNat_mul], sameRegsBut_setReg_advance _ _ _ _, rfl, fun _ => rfl, rfl,
      rfl, rfl, rfl⟩, fun _ => by omega, fun _ _ => by omega⟩
  · exact ⟨fun _ => by omega, fun _ => faultsWith_of_exec e, fun _ => by omega⟩
  · exact ⟨fun _ _ => by omega, fun _ => by omega, fun _ _ => faultsWith_of_exec e⟩

/-! ### The comparison, one equation per relation (R93, R95) -/

theorem compareFlags_of_eq {a b : RegWord} (h : a.toNat = b.toNat) (f : Flags) :
    compareFlags a b f = { f with eq := true } :=
  if_pos (BitVec.eq_of_toNat_eq h)

theorem compareFlags_of_lt {a b : RegWord} (h : a.toNat < b.toNat) (f : Flags) :
    compareFlags a b f = { f with lt := true } := by
  have hne : a ≠ b := fun e => Nat.ne_of_lt h (congrArg BitVec.toNat e)
  simp [compareFlags, hne, BitVec.lt_def, h]

theorem compareFlags_of_gt {a b : RegWord} (h : b.toNat < a.toNat) (f : Flags) :
    compareFlags a b f = { f with gt := true } := by
  have hne : a ≠ b := fun e => Nat.ne_of_gt h (congrArg BitVec.toNat e)
  simp [compareFlags, hne, BitVec.lt_def, Nat.le_of_lt h]

/-- Settles O6: `exec_cmp_cases` has one answer for two legal registers, whose flags are those of the relation that
holds, and one for the first illegal register. -/
theorem cmpSetsOneFlagAndClearsNone : Obligations.CmpSetsOneFlagAndClearsNone := by
  refine fun op1 op2 => ⟨fun _ => rfl, fun s => ?_⟩
  rcases exec_cmp_cases op1 op2 s with ⟨h1, h2, e⟩ | ⟨h1, e⟩ | ⟨h1, h2, e⟩
  · refine ⟨fun _ _ => ⟨_, e, fun hrel => ?_, fun hrel => ?_, fun hrel => ?_, fun _ => rfl, rfl, fun _ => rfl, rfl, rfl,
      rfl⟩, fun _ => by omega, fun _ _ => by omega⟩
    · simp [compareFlags_of_eq hrel]
    · simp [compareFlags_of_lt hrel]
    · simp [compareFlags_of_gt hrel]
  · exact ⟨fun _ => by omega, fun _ => faultsWith_of_exec e, fun _ => by omega⟩
  · exact ⟨fun _ _ => by omega, fun _ => by omega, fun _ _ => faultsWith_of_exec e⟩

end Sys2Proof.Machine
end

section
/-! LT and GT are never read (41_data_compare.md rule R96). A state that differs from `s` only in LT and GT is
`s.setFlags f` with `f.eq = s.flags.eq`. Every operation the engine and the host are made of commutes with `setFlags` by
definition, so two such states are followed side by side, operation by operation; `JEQ` and `JNE` branch on EQ alone. -/

namespace Sys2Proof.Machine

/-- `t` is `s` but for LT and GT. -/
def SameButLtGt (s t : State) : Prop :=
  t = { s with flags := { s.flags with lt := t.flags.lt, gt := t.flags.gt } }

theorem SameButLtGt.refl (s : State) : SameButLtGt s s := rfl

theorem sameButLtGt_setFlags {s : State} {f : Flags} (hf : f.eq = s.flags.eq) : SameButLtGt s (s.setFlags f) := by
  simp only [SameButLtGt, State.setFlags, ← hf]

/-! ### The engine -/

/-- Two outcomes are next states that differ at most in LT and GT. -/
def NextAlike (r r' : Result) : Prop := ∃ t t', r = .next t ∧ r' = .next t' ∧ SameButLtGt t t'

theorem nextAlike_setFlags {t : State} {f : Flags} (hf : f.eq = t.flags.eq) :
    NextAlike (.next t) (.next (t.setFlags f)) :=
  ⟨t, t.setFlags f, rfl, rfl, sameButLtGt_setFlags hf⟩

theorem eq_compareFlags (a b : RegWord) (f : Flags) : (compareFlags a b f).eq = (decide (a = b) || f.eq) := by
  unfold compareFlags
  by_cases hab : a = b
  · simp [hab]
  · by_cases hlt : a < b <;> simp [hab, hlt]

section
variable {s : State} {f : Flags} (hf : f.eq = s.flags.eq)
include hf

/-- What reads neither LT nor GT goes on with the same value, or raises the same fault. -/
theorem nextAlike_bind {α : Type} (x : Attempt α) {k k' : α → Attempt State}
    (hk : ∀ a, NextAlike (conclude s (k a)) (conclude (s.setFlags f) (k' a))) :
    NextAlike (conclude s (x >>= k)) (conclude (s.setFlags f) (x >>= k')) := by
  cases x with
  | ok a => exact hk a
  | error c => exact nextAlike_setFlags (t := takeFault c s) hf

/-- A stack write goes on with the same memory, or raises the same fault. -/
theorem nextAlike_stackWrite (u : State) (a : RegWord) (v : Byte) {k : State → Attempt State}
    (hk : ∀ m, NextAlike (conclude s (k (u.setMem m))) (conclude (s.setFlags f) (k ((u.setMem m).setFlags f)))) :
    NextAlike (conclude s (u.stackWrite a v >>= k))
      (conclude (s.setFlags f) ((u.setFlags f).stackWrite a v >>= k)) := by
  rcases u.stackWrite_cases a v with ⟨ha, e⟩ | ⟨rfl, e⟩
  · rw [e, State.stackWrite_ok _ v ha]
    exact hk _
  · rw [e]
    exact nextAlike_setFlags (t := takeFault _ s) hf

/-- A branch on EQ takes the same side. -/
theorem nextAlike_branch (t u : State) (ht : t.flags = s.flags) (hu : u.flags = s.flags) :
    NextAlike (.next (if s.flags.eq then t else u)) (.next (if f.eq then t.setFlags f else u.setFlags f)) := by
  rw [hf]
  split
  · exact nextAlike_setFlags (hf.trans (congrArg Flags.eq ht.symm))
  · exact nextAlike_setFlags (hf.trans (congrArg Flags.eq hu.symm))

/-- Every instruction does the same whatever LT and GT hold, up to LT and GT. -/
theorem exec_setFlags_nextAlike (i : Instr) : NextAlike (exec i s) (exec i (s.setFlags f)) := by
  cases i with
  | hlt => exact nextAlike_setFlags (t := (s.setRun false).advance 1) hf
  | ldi op1 op2 =>
    exact nextAlike_bind hf (regOperand op1) fun n =>
      nextAlike_setFlags (t := (s.setReg n (immOperand op2)).advance 3) hf
  | prn op1 =>
    exact nextAlike_bind hf (regOperand op1) fun n => nextAlike_setFlags (t := (s.emit (s.reg n)).advance 2) hf
  | mul op1 op2 =>
    exact nextAlike_bind hf (regOperand op1) fun a => nextAlike_bind hf (regOperand op2) fun b =>
      nextAlike_setFlags (t := (s.setReg a (s.reg a * s.reg b)).advance 3) hf
  | push op1 =>
    exact nextAlike_bind hf (regOperand op1) fun n =>
      nextAlike_stackWrite hf s.decSp s.pushAddr (byteOfReg (s.decSp.reg n)) fun m =>
        nextAlike_setFlags (t := (s.decSp.setMem m).advance 2) hf
  | pop op1 =>
    exact nextAlike_bind hf (regOperand op1) fun n => nextAlike_bind hf (s.stackRead s.popAddr) fun v =>
      nextAlike_setFlags (t := (s.setReg n (regOfByte v)).incSp.advance 2) hf
  | call op1 =>
    exact nextAlike_bind hf (regOperand op1) fun n =>
      nextAlike_stackWrite hf s.decSp s.pushAddr s.returnAddr fun m =>
        nextAlike_setFlags (t := (s.decSp.setMem m).jump (s.decSp.reg n)) hf
  | ret =>
    exact nextAlike_bind hf (s.stackRead s.popAddr) fun v =>
      nextAlike_setFlags (t := ((s.setReg Config.retReg (regOfByte v)).incSp).jump
        ((s.setReg Config.retReg (regOfByte v)).incSp.reg Config.retReg)) hf
  | jmp op1 => exact nextAlike_bind hf (regOperand op1) fun n => nextAlike_setFlags (t := s.jump (s.reg n)) hf
  | jeq op1 =>
    exact nextAlike_bind hf (regOperand op1) fun n => nextAlike_branch hf (s.jump (s.reg n)) (s.advance 2) rfl rfl
  | jne op1 =>
    exact nextAlike_bind hf (regOperand op1) fun n => nextAlike_branch hf (s.advance 2) (s.jump (s.reg n)) rfl rfl
  | cmp op1 op2 =>
    refine nextAlike_bind hf (regOperand op1) fun a => nextAlike_bind hf (regOperand op2) fun b => ?_
    have heq : (compareFlags (s.reg a) (s.reg b) f).eq = (compareFlags (s.reg a) (s.reg b) s.flags).eq := by
      simp only [eq_compareFlags, hf]
    exact nextAlike_setFlags (t := (s.setFlags (compareFlags (s.reg a) (s.reg b) s.flags)).advance 3) heq
  | unknown opc => exact nextAlike_setFlags (t := s.advance (opcodeLength opc)) hf

/-- Every step does: whether the machine runs and what it fetches depend on no flag. -/
theorem step_setFlags_nextAlike : NextAlike (step s) (step (s.setFlags f)) := by
  rcases step_cases s with ⟨hrun, e⟩ | ⟨hrun, c, hc, e⟩ | ⟨hrun, i, hi, e⟩
  · rw [e, step_stopped (s := s.setFlags f) hrun]
    exact nextAlike_setFlags hf
  · rw [e, step_fetchFault (s := s.setFlags f) hrun hc]
    exact nextAlike_setFlags (t := takeFault c s) hf
  · rw [e, step_fetched (s := s.setFlags f) hrun hi]
    exact exec_setFlags_nextAlike hf i

end

/-! ### The host -/

/-- Two host operations are refused alike, or give the same answer and states that differ at most in LT and GT. -/
def AnsweredAlike (r r' : HostResult) : Prop :=
  (∀ e, r = .refused e ↔ r' = .refused e) ∧
  ∀ t a, r = .next (t, a) → ∃ t', r' = .next (t', a) ∧ SameButLtGt t t'

theorem AnsweredAlike.refused (e : Refusal) : AnsweredAlike (.refused e) (.refused e) := ⟨fun _ => .rfl, nofun⟩

theorem AnsweredAlike.next {t t' : State} (h : SameButLtGt t t') (a : HostAnswer) :
    AnsweredAlike (.next (t, a)) (.next (t', a)) := by
  refine ⟨fun _ => ⟨nofun, nofun⟩, fun u b e => ?_⟩
  cases e
  exact ⟨t', rfl, h⟩

theorem AnsweredAlike.ite {c : Prop} [Decidable c] {r₁ r₂ r₁' r₂' : HostResult} (h₁ : AnsweredAlike r₁ r₁')
    (h₂ : AnsweredAlike r₂ r₂') : AnsweredAlike (if c then r₁ else r₂) (if c then r₁' else r₂') := by
  split
  · exact h₁
  · exact h₂

section
variable {s : State} {f : Flags} (hf : f.eq = s.flags.eq)
include hf

theorem hostRun_answeredAlike : AnsweredAlike (hostRun s) (hostRun (s.setFlags f)) := by
  unfold hostRun
  rw [State.fault_setFlags]
  split
  · exact .next (sameButLtGt_setFlags (s := s.setRun true) hf) _
  · exact .next (sameButLtGt_setFlags hf) _

/-- Every host operation does the same whatever LT and GT hold, up to LT and GT; reset forgets both. -/
theorem hostStep_answeredAlike (op : HostOp) : AnsweredAlike (hostStep op s) (hostStep op (s.setFlags f)) := by
  have hmem (m : Memory) : SameButLtGt (s.setMem m) ((s.setFlags f).setMem m) :=
    sameButLtGt_setFlags (s := s.setMem m) hf
  cases op with
  | reset memInit => exact .next (.refl _) _
  | load program => exact .ite (.refused _) (.ite (.refused _) (.ite (.next (hmem _) _) (.refused _)))
  | ramWrite a v => exact .ite (.refused _) (.ite (.ite (.next (hmem _) _) (.refused _)) (.refused _))
  | ramRead a => exact .ite (.refused _) (.ite (.next (sameButLtGt_setFlags hf) _) (.refused _))
  | run => exact .ite (.refused _) (hostRun_answeredAlike hf)
  | observe => exact .ite (.refused _) (.next (sameButLtGt_setFlags hf) _)

end

/-- Settles O37: `CMP` writes the flags O6 says; two states that agree but for LT and GT are followed side by side
through a step and through a host operation. -/
theorem ltAndGtAreNeverRead : Obligations.LtAndGtAreNeverRead := by
  refine ⟨fun a b ha hb s => ?_, ?_⟩
  · obtain ⟨-, hcmp⟩ := cmpSetsOneFlagAndClearsNone a b
    obtain ⟨hlegal, -, -⟩ := hcmp s
    obtain ⟨t, e, -, hlt, hgt, -⟩ := hlegal ha hb
    exact ⟨t, e, fun hrel => (hlt hrel).1, fun hrel => (hgt hrel).1⟩
  · rintro s _ l g rfl
    have hf : ({ s.flags with lt := l, gt := g } : Flags).eq = s.flags.eq := rfl
    exact ⟨step_setFlags_nextAlike hf, hostStep_answeredAlike hf⟩

end Sys2Proof.Machine
end

section
/-! `PUSH` and `POP` (42_stack.md rules R101, R102). -/

namespace Sys2Proof.Machine

theorem sameRegsBut_decSp (s : State) : SameRegsBut 7 s s.decSp := by
  intro j hj
  simp [hj]

/-- Settles O7: `exec_push_cases` has one answer for a legal register with R7 above 0, one for R7 = 0, where nothing is
stored, and one for an illegal register. The stored value is the register of the state whose R7 is decremented. -/
theorem pushStoresBelowTheStackPointer : Obligations.PushStoresBelowTheStackPointer := by
  refine fun op1 => ⟨fun _ => rfl, fun s hwf => ?_⟩
  rcases exec_push_cases op1 s with ⟨hr, hsp, e⟩ | ⟨hr, hsp, e⟩ | ⟨hr, e⟩
  · have hcell := Memory.read_write_same s.mem s.pushAddr.toNat (s.decSp.reg ⟨op1.toNat, hr⟩) hwf
    exact ⟨fun _ _ => ⟨_, e, State.reg_decSp s 7, State.pushAddr_toNat hsp, hcell.trans (State.reg_decSp ..),
      fun a ha => Memory.read_write_other _ _ a _ hwf ha, sameRegsBut_decSp s, rfl, rfl, rfl, rfl, rfl⟩,
      fun _ h0 => absurd h0 hsp, fun _ => by omega⟩
  · exact ⟨fun _ h0 => absurd hsp h0, fun _ _ => faultsWith_of_exec e, fun _ => by omega⟩
  · exact ⟨fun _ => by omega, fun _ => by omega, fun _ => faultsWith_of_exec e⟩

/-! ### The registers after a pop: the operand is written, then R7 is incremented (R102, decision D19) -/

/-- The increment finds R7 as it was when another register receives the popped value. -/
theorem reg_pop_of_ne (s : State) {n : Fin Config.nregs} (hn : n ≠ 7) (v : RegWord) :
    (s.setReg n v).incSp.reg n = v ∧ (s.setReg n v).incSp.reg 7 = s.reg 7 + 1#8 := by
  simp [hn, hn.symm]

/-- `POP R7`: the increment finds the popped value. -/
theorem reg_pop_sp (s : State) (v : RegWord) : (s.setReg 7 v).incSp.reg 7 = v + 1#8 := by
  simp

theorem reg_pop_other (s : State) {n j : Fin Config.nregs} (hn : j ≠ n) (h7 : j ≠ 7) (v : RegWord) :
    (s.setReg n v).incSp.reg j = s.reg j := by
  simp [hn, h7]

/-- Settles O8: `exec_pop_cases` has one answer for a legal register with R7 below 255, whose increment does not wrap
unless R7 is the operand, one for R7 = 255, and one for an illegal register. -/
theorem popLoadsTheTopCell : Obligations.PopLoadsTheTopCell := by
  refine fun op1 => ⟨fun _ => rfl, fun s => ?_⟩
  rcases exec_pop_cases op1 s with ⟨hr, hsp, e⟩ | ⟨hr, hsp, e⟩ | ⟨hr, e⟩
  · refine ⟨fun _ _ => ⟨_, e, fun hn => ?_, fun hn => ?_, fun _ hn h7 => reg_pop_other s hn h7 _, fun _ => rfl, rfl, rfl,
      rfl, rfl, rfl⟩, fun _ h255 => absurd h255 hsp, fun _ => by omega⟩
    · obtain ⟨hop, h7⟩ := reg_pop_of_ne s hn (s.mem.read (s.reg 7).toNat)
      exact ⟨hop, (congrArg BitVec.toNat h7).trans (byte_succ_toNat hsp)⟩
    · rw [hn]
      exact (congrArg BitVec.toNat (reg_pop_sp s _)).trans (BitVec.toNat_add ..)
  · exact ⟨fun _ h255 => absurd hsp h255, fun _ _ => faultsWith_of_exec e, fun _ => by omega⟩
  · exact ⟨fun _ => by omega, fun _ => by omega, fun _ => faultsWith_of_exec e⟩

end Sys2Proof.Machine
end

section
/-! `JMP`, `JEQ`, `JNE`, `CALL` and `RET` (43_control_flow.md rules R110 to R115). -/

namespace Sys2Proof.Machine

/-- A write of `pc` leaves everything else as it is. -/
theorem setPc_frame (s : State) (p : PcWord) :
    SameRegs s (s.setPc p) ∧ SameMem s (s.setPc p) ∧ (s.setPc p).flags = s.flags ∧ (s.setPc p).out = s.out ∧
      SameControl s (s.setPc p) :=
  ⟨fun _ => rfl, fun _ => rfl, rfl, rfl, rfl, rfl⟩

/-- Settles O9: what `exec_jmp_cases` answers for a legal and for an illegal register. -/
theorem jmpTakesTheRegisterAsPc : Obligations.JmpTakesTheRegisterAsPc := by
  refine fun op1 => ⟨fun _ => rfl, fun s => ?_⟩
  rcases exec_jmp_cases op1 s with ⟨hr, e⟩ | ⟨hr, e⟩
  · exact ⟨fun _ => ⟨_, e, zext9_toNat _, setPc_frame s _⟩, fun _ => by omega⟩
  · exact ⟨fun _ => by omega, fun _ => faultsWith_of_exec e⟩

/-! ### The conditional jumps: both branches write `pc` alone -/

theorem ite_jump_advance (c : Prop) [Decidable c] (s : State) (v : RegWord) (n : Nat) :
    (if c then s.jump v else s.advance n) =
      s.setPc (if c then zext9 v else s.pc + BitVec.ofNat Config.pcBits n) :=
  (apply_ite s.setPc c _ _).symm

theorem ite_advance_jump (c : Prop) [Decidable c] (s : State) (v : RegWord) (n : Nat) :
    (if c then s.advance n else s.jump v) =
      s.setPc (if c then s.pc + BitVec.ofNat Config.pcBits n else zext9 v) :=
  (apply_ite s.setPc c _ _).symm

/-- Settles O10: for a legal register `exec_jeq_cases` answers `s` with `pc` chosen by EQ; an illegal one faults
whatever EQ holds. -/
theorem jeqJumpsWhenEqIsSet : Obligations.JeqJumpsWhenEqIsSet := by
  refine fun op1 => ⟨fun _ => rfl, fun s => ?_⟩
  rcases exec_jeq_cases op1 s with ⟨hr, e⟩ | ⟨hr, e⟩
  · rw [ite_jump_advance] at e
    exact ⟨fun _ => ⟨_, e, fun hq => by simp [hq, zext9_toNat], fun hq => by simp [hq], setPc_frame s _⟩,
      fun _ => by omega⟩
  · exact ⟨fun _ => by omega, fun _ => faultsWith_of_exec e⟩

/-- Settles O11: as for `JEQ`, with the branches exchanged. -/
theorem jneJumpsWhenEqIsClear : Obligations.JneJumpsWhenEqIsClear := by
  refine fun op1 => ⟨fun _ => rfl, fun s => ?_⟩
  rcases exec_jne_cases op1 s with ⟨hr, e⟩ | ⟨hr, e⟩
  · rw [ite_advance_jump] at e
    exact ⟨fun _ => ⟨_, e, fun hq => by simp [hq, zext9_toNat], fun hq => by simp [hq], setPc_frame s _⟩,
      fun _ => by omega⟩
  · exact ⟨fun _ => by omega, fun _ => faultsWith_of_exec e⟩

/-! ### `CALL` and `RET` -/

/-- Settles O12: `exec_call_cases` has one answer for a legal register with R7 above 0, one for R7 = 0, and one for an
illegal register. The target is the register of the state whose R7 is decremented, and the return address fits its
cell where the operand fetch succeeded. -/
theorem callPushesTheReturnAddress : Obligations.CallPushesTheReturnAddress := by
  refine fun op1 => ⟨fun _ => rfl, fun s hwf => ?_⟩
  rcases exec_call_cases op1 s with ⟨hr, hsp, e⟩ | ⟨hr, hsp, e⟩ | ⟨hr, e⟩
  · have hcell := Memory.read_write_same s.mem s.pushAddr.toNat s.returnAddr hwf
    have htarget := State.reg_decSp s ⟨op1.toNat, hr⟩
    exact ⟨fun _ _ => ⟨_, e, State.reg_decSp s 7, State.pushAddr_toNat hsp,
      fun hpc => (congrArg BitVec.toNat hcell).trans (State.returnAddr_toNat hpc),
      (zext9_toNat _).trans (congrArg BitVec.toNat htarget),
      fun a ha => Memory.read_write_other _ _ a _ hwf ha, sameRegsBut_decSp s, rfl, rfl, rfl, rfl⟩,
      fun _ h0 => absurd h0 hsp, fun _ => by omega⟩
  · exact ⟨fun _ h0 => absurd hsp h0, fun _ _ => faultsWith_of_exec e, fun _ => by omega⟩
  · exact ⟨fun _ => by omega, fun _ => by omega, fun _ => faultsWith_of_exec e⟩

/-- Settles O13: `exec_ret_cases` has one answer for R7 below 255, whose registers are those of a pop into R0, and one
for R7 = 255. -/
theorem retPopsIntoR0AndPc : Obligations.RetPopsIntoR0AndPc := by
  refine ⟨fun _ => rfl, fun s => ?_⟩
  rcases exec_ret_cases s with ⟨hsp, e⟩ | ⟨hsp, e⟩
  · obtain ⟨h0, h7⟩ := reg_pop_of_ne s (n := 0) (by decide) (s.mem.read (s.reg 7).toNat)
    exact ⟨fun _ => ⟨_, e, h0, (congrArg BitVec.toNat h7).trans (byte_succ_toNat hsp), zext9_toNat _,
      fun _ hj0 hj7 => reg_pop_other s hj0 hj7 _, fun _ => rfl, rfl, rfl, rfl, rfl⟩, fun h255 => absurd h255 hsp⟩
  · exact ⟨fun h255 => absurd hsp h255, fun _ => faultsWith_of_exec e⟩

/-! ### The target of a jump taken (R110) -/

/-- `t` is at the target `v`, with `RUN` and `FAULT` as in `s`. -/
def JumpedTo (v : RegWord) (s t : State) : Prop := t.pc = zext9 v ∧ SameControl s t

section
variable {op1 : Byte} (h : op1.toNat < 8) {s t : State}

theorem jumpedTo_of_jmp (e : exec (.jmp op1) s = .next t) : JumpedTo (s.reg ⟨op1.toNat, h⟩) s t := by
  rcases exec_jmp_cases op1 s with ⟨_, e'⟩ | ⟨hr, -⟩
  · cases e'.symm.trans e
    exact ⟨rfl, rfl, rfl⟩
  · omega

theorem jumpedTo_of_jeq (hq : s.flags.eq = true) (e : exec (.jeq op1) s = .next t) :
    JumpedTo (s.reg ⟨op1.toNat, h⟩) s t := by
  rcases exec_jeq_cases op1 s with ⟨_, e'⟩ | ⟨hr, -⟩
  · rw [hq] at e'
    cases e'.symm.trans e
    exact ⟨rfl, rfl, rfl⟩
  · omega

theorem jumpedTo_of_jne (hq : s.flags.eq = false) (e : exec (.jne op1) s = .next t) :
    JumpedTo (s.reg ⟨op1.toNat, h⟩) s t := by
  rcases exec_jne_cases op1 s with ⟨_, e'⟩ | ⟨hr, -⟩
  · rw [hq] at e'
    cases e'.symm.trans e
    exact ⟨rfl, rfl, rfl⟩
  · omega

/-- The target is the register after the push, R7 included. -/
theorem jumpedTo_of_call (hsp : s.reg 7 ≠ 0#8) (e : exec (.call op1) s = .next t) :
    JumpedTo (t.reg ⟨op1.toNat, h⟩) s t := by
  rcases exec_call_cases op1 s with ⟨_, -, e'⟩ | ⟨-, h0, -⟩ | ⟨hr, -⟩
  · cases e'.symm.trans e
    exact ⟨rfl, rfl, rfl⟩
  · exact absurd h0 hsp
  · omega

end

theorem jumpedTo_of_ret {s t : State} (hsp : s.reg 7 ≠ 255#8) (e : exec .ret s = .next t) :
    JumpedTo (s.mem.read (s.reg 7).toNat) s t := by
  rcases exec_ret_cases s with ⟨-, e'⟩ | ⟨h255, -⟩
  · cases e'.symm.trans e
    exact ⟨rfl, rfl, rfl⟩
  · exact absurd h255 hsp

/-- Past the end of memory the opcode fetch's fault comes first (60_exceptions.md rules R142, R143). -/
theorem State.fetchInstr_past {s : State} (h : 255 ≤ s.pc.toNat) :
    s.fetchInstr = .error { code := .fetchBounds, info := s.pc.toNat } := by
  simp [State.fetchInstr, State.fetchBytes_past h, decode]

theorem faultTaken_takeFault (f : FaultRecord) (s : State) : FaultTaken f s (takeFault f s) :=
  ⟨rfl, rfl, fun _ => rfl, fun _ => rfl, rfl, rfl, rfl⟩

/-- Settles O24: each of the five jumps leaves `pc` at the target and the machine running, so only the next opcode fetch
looks at the target. -/
theorem jumpTargetsAreCheckedOnlyAtTheFetch : Obligations.JumpTargetsAreCheckedOnlyAtTheFetch := by
  intro op1 v h s t hrun hfault hjump
  have hjumped : JumpedTo v s t := by
    rcases hjump with ⟨e, rfl⟩ | ⟨e, hq, rfl⟩ | ⟨e, hq, rfl⟩ | ⟨e, hsp, rfl⟩ | ⟨e, hsp, rfl⟩
    · exact jumpedTo_of_jmp h e
    · exact jumpedTo_of_jeq h hq e
    · exact jumpedTo_of_jne h hq e
    · exact jumpedTo_of_call h hsp e
    · exact jumpedTo_of_ret hsp e
  obtain ⟨hpc, hrun', hfault'⟩ := hjumped
  have hnum : t.pc.toNat = v.toNat := by rw [hpc, zext9_toNat]
  refine ⟨hnum, hrun'.trans hrun, hfault'.trans hfault, fun hlt => ?_, fun hv => ?_⟩
  · simp [State.fetchOpcode, hnum, hlt]
  · have h255 : t.pc.toNat = 255 := by rw [hnum, hv]; rfl
    have hfetch := State.fetchInstr_past (s := t) (Nat.le_of_eq h255.symm)
    rw [h255] at hfetch
    exact ⟨_, step_fetchFault (hrun'.trans hrun) hfetch, faultTaken_takeFault _ t⟩

end Sys2Proof.Machine
end

section
/-! The host's operations on a stopped machine, and its silence while `RUN = 1` (50_host_interface.md rules R131, R133,
R135, R136). -/

namespace Sys2Proof.Machine

theorem whenStopped_running {s : State} (h : s.run = true) (r : HostResult) :
    whenStopped s r = .refused .hostWhileRunning := if_pos h

theorem whenStopped_stopped {s : State} (h : s.run = false) (r : HostResult) : whenStopped s r = r := by
  simp [whenStopped, h]

/-- A write of memory leaves everything else as it is. -/
theorem setMem_frame (s : State) (m : Memory) :
    SameRegs s (s.setMem m) ∧ (s.setMem m).flags = s.flags ∧ (s.setMem m).pc = s.pc ∧ SameControl s (s.setMem m) ∧
      (s.setMem m).out = s.out :=
  ⟨fun _ => rfl, rfl, rfl, ⟨rfl, rfl⟩, rfl⟩

/-- A number below 256 is the value of the byte the host writes for it. -/
theorem toNat_ofNat_byte {v : Nat} (h : v < 256) : (BitVec.ofNat Config.cellBits v).toNat = v :=
  (BitVec.toNat_ofNat v _).trans (Nat.mod_eq_of_lt h)

/-! ### The memory after a load (R131) -/

/-- The memory `m` with a program's bytes from address 0. -/
def Memory.load (m : Memory) (program : List Nat) : Memory :=
  m.writeBytes 0 (program.map (BitVec.ofNat Config.cellBits))

section
variable {m : Memory} (hm : m.wf = true) {program : List Nat}
include hm

theorem Memory.read_load_inside (hlen : program.length ≤ 255) {i : Nat} (hi : i < program.length) :
    (m.load program).read i = BitVec.ofNat Config.cellBits program[i] := by
  have hmem : i < Config.memSize := Nat.lt_of_lt_of_le hi hlen
  simp [Memory.load, Memory.read_writeBytes _ m 0 i hm hmem, hi]

/-- Past the program every address reads as before: inside memory since nothing is written there, outside since nothing
can be. -/
theorem Memory.read_load_past {a : Nat} (ha : program.length ≤ a) : (m.load program).read a = m.read a := by
  by_cases hmem : a < Config.memSize
  · simp [Memory.load, Memory.read_writeBytes _ m 0 a hm hmem, ha]
  · have hpast := Nat.le_of_not_lt hmem
    rw [Memory.read_past m 0 a hm hpast]
    exact Memory.read_past _ 0 a (Memory.writeBytes_wf _ m 0 hm) hpast

end

/-! ### Each operation on a stopped machine: what it answers, and when it is refused -/

section
variable {s : State} (hrun : s.run = false)
include hrun

theorem hostStep_load_fits {program : List Nat} (hlen : program.length ≤ 255) (hval : ∀ v ∈ program, v < 256) :
    hostStep (.load program) s = .next (s.setMem (s.mem.load program), .done) := by
  have hall : program.all (· < 2 ^ Config.cellBits) = true := by simpa using hval
  exact (whenStopped_stopped hrun _).trans ((if_neg (Nat.not_lt.mpr hlen)).trans (if_pos hall))

theorem hostStep_load_tooLong {program : List Nat} (hlen : 255 < program.length) :
    hostStep (.load program) s = .refused .hostProgramTooLong :=
  (whenStopped_stopped hrun _).trans (if_pos hlen)

theorem hostStep_load_tooWide {program : List Nat} (hlen : program.length ≤ 255) {v : Nat} (hv : v ∈ program)
    (hwide : 256 ≤ v) : hostStep (.load program) s = .refused .hostValueOutOfRange := by
  have hall : ¬ program.all (· < 2 ^ Config.cellBits) = true := by simpa using ⟨v, hv, hwide⟩
  exact (whenStopped_stopped hrun _).trans ((if_neg (Nat.not_lt.mpr hlen)).trans (if_neg hall))

theorem hostStep_ramRead_inside {a : Nat} (ha : a < 255) : hostStep (.ramRead a) s = .next (s, .byte (s.mem.read a)) :=
  (whenStopped_stopped hrun _).trans (if_pos ha)

theorem hostStep_ramRead_outside {a : Nat} (ha : 255 ≤ a) :
    hostStep (.ramRead a) s = .refused .hostAddressOutOfRange :=
  (whenStopped_stopped hrun _).trans (if_neg (Nat.not_lt.mpr ha))

theorem hostStep_ramWrite_inside {a v : Nat} (ha : a < 255) (hv : v < 256) :
    hostStep (.ramWrite a v) s = .next (s.setMem (s.mem.write a (BitVec.ofNat Config.cellBits v)), .done) :=
  (whenStopped_stopped hrun _).trans ((if_pos ha).trans (if_pos hv))

theorem hostStep_ramWrite_outside {a : Nat} (ha : 255 ≤ a) (v : Nat) :
    hostStep (.ramWrite a v) s = .refused .hostAddressOutOfRange :=
  (whenStopped_stopped hrun _).trans (if_neg (Nat.not_lt.mpr ha))

theorem hostStep_ramWrite_tooWide {a v : Nat} (ha : a < 255) (hv : 256 ≤ v) :
    hostStep (.ramWrite a v) s = .refused .hostValueOutOfRange :=
  (whenStopped_stopped hrun _).trans ((if_pos ha).trans (if_neg (Nat.not_lt.mpr hv)))

theorem hostStep_observe : hostStep .observe s = .next (s, .status false s.fault s.out) :=
  (whenStopped_stopped hrun _).trans (by rw [hostObserve, hrun])

end

/-! ### The statements -/

/-- Settles O49: a program that fits is in memory from address 0, by the laws of `Memory.load`; one that is too long is
refused for its length, and otherwise one with a value above 255 for that value. -/
theorem loadWritesTheProgramFromAddressZero : Obligations.LoadWritesTheProgramFromAddressZero := by
  refine fun program s hrun hwf => ⟨fun hlen hval => ⟨_, hostStep_load_fits hrun hlen hval, fun i hi => ?_,
    fun a ha => Memory.read_load_past hwf ha, setMem_frame s _⟩, fun hbad => ?_⟩
  · rw [State.mem_setMem, Memory.read_load_inside hwf hlen hi, toNat_ofNat_byte (hval _ (List.getElem_mem hi))]
  · by_cases hlen : 255 < program.length
    · exact ⟨_, hostStep_load_tooLong hrun hlen⟩
    · obtain ⟨v, hv, hwide⟩ := hbad.resolve_left hlen
      exact ⟨_, hostStep_load_tooWide hrun (Nat.le_of_not_lt hlen) hv hwide⟩

/-- Settles O51: the answers to `ramRead` and `ramWrite` inside memory, the cell written by the read-after-write laws;
the address is checked before the value. -/
theorem ramReadAndRamWriteReachOneCell : Obligations.RamReadAndRamWriteReachOneCell := by
  refine fun s a v hrun hwf => ⟨hostStep_ramRead_inside hrun, fun ha hv => ⟨_, hostStep_ramWrite_inside hrun ha hv, ?_,
    fun x hx => Memory.read_write_other s.mem a x _ hwf hx, setMem_frame s _⟩,
    fun ha => ⟨_, hostStep_ramRead_outside hrun ha⟩, fun hbad => ?_⟩
  · rw [State.mem_setMem, Memory.read_write_same s.mem a _ hwf, toNat_ofNat_byte hv]
  · by_cases ha : 255 ≤ a
    · exact ⟨_, hostStep_ramWrite_outside hrun ha v⟩
    · exact ⟨_, hostStep_ramWrite_tooWide hrun (Nat.lt_of_not_le ha) (hbad.resolve_left ha)⟩

/-- Settles O52: whatever run led there, a machine with `RUN = 0` answers its status and each cell, and its end is told by
the latch alone. -/
theorem hostObservesTheStatus : Obligations.HostObservesTheStatus :=
  fun _ _ _ _ _ _ _ hrun =>
    ⟨hostStep_observe hrun, and_iff_right hrun, and_iff_right hrun, fun _ => hostStep_ramRead_inside hrun⟩

/-- Settles O53: reset gives the reset state in every machine, and every other operation waits for `RUN = 0`. -/
theorem hostIsSilentWhileRunning : Obligations.HostIsSilentWhileRunning := by
  intro s op hrun
  cases op with
  | reset memInit => exact .inl ⟨memInit, rfl, rfl⟩
  | load program => exact .inr ⟨nofun, whenStopped_running hrun _⟩
  | ramWrite a v => exact .inr ⟨nofun, whenStopped_running hrun _⟩
  | ramRead a => exact .inr ⟨nofun, whenStopped_running hrun _⟩
  | run => exact .inr ⟨nofun, whenStopped_running hrun _⟩
  | observe => exact .inr ⟨nofun, whenStopped_running hrun _⟩

end Sys2Proof.Machine
end

section
/-! What decoding lacks, and how many operand bytes an opcode announces (30_encoding.md rules R50, R51, R54, R57). -/

namespace Sys2Proof

/-- The operand byte that an error names is announced by the opcode's top two bits and is the first one missing. -/
def DecodeError.Lacks (opc : Byte) (bytes : List Byte) : DecodeError → Prop
  | .noOpcode => False
  | .noOperand1 => 1 ≤ opc.toNat / 64 ∧ bytes.length = 0
  | .noOperand2 => 2 ≤ opc.toNat / 64 ∧ bytes.length = 1

theorem decodeR_lacks {mk : Byte → Instr} {opc : Byte} {bytes : List Byte} {e : DecodeError}
    (hlen : 1 ≤ opc.toNat / 64) (h : decodeR mk bytes = .error e) : e.Lacks opc bytes := by
  match bytes with
  | [] =>
    cases h
    exact ⟨hlen, rfl⟩
  | _ :: _ => cases h

theorem decodeRR_lacks {mk : Byte → Byte → Instr} {opc : Byte} {bytes : List Byte} {e : DecodeError}
    (hlen : 2 ≤ opc.toNat / 64) (h : decodeRR mk bytes = .error e) : e.Lacks opc bytes := by
  match bytes with
  | [] =>
    cases h
    exact ⟨Nat.le_of_succ_le hlen, rfl⟩
  | [_] =>
    cases h
    exact ⟨hlen, rfl⟩
  | _ :: _ :: _ => cases h

/-- Only a row of the table can lack a byte, and only an operand byte (30_encoding.md rules R51, R57). -/
theorem decodeOpcode_lacks {opc : Byte} {bytes : List Byte} {e : DecodeError}
    (h : decodeOpcode opc bytes = .error e) : isKnown opc = true ∧ e.Lacks opc bytes := by
  cases hk : isKnown opc with
  | false => cases (decodeOpcode_unknown hk bytes).symm.trans h
  | true =>
    refine ⟨rfl, ?_⟩
    have hmem := (isKnown_iff opc).mp hk
    simp only [knownOpcodes, List.mem_cons, List.not_mem_nil, or_false] at hmem
    rcases hmem with rfl | rfl | rfl | rfl | rfl | rfl | rfl | rfl | rfl | rfl | rfl | rfl
    · cases h
    · exact decodeRR_lacks (mk := .ldi) (by decide) h
    · exact decodeR_lacks (mk := .prn) (by decide) h
    · exact decodeRR_lacks (mk := .mul) (by decide) h
    · exact decodeR_lacks (mk := .push) (by decide) h
    · exact decodeR_lacks (mk := .pop) (by decide) h
    · exact decodeR_lacks (mk := .call) (by decide) h
    · cases h
    · exact decodeR_lacks (mk := .jmp) (by decide) h
    · exact decodeR_lacks (mk := .jeq) (by decide) h
    · exact decodeR_lacks (mk := .jne) (by decide) h
    · exact decodeRR_lacks (mk := .cmp) (by decide) h

/-- What `Laws.Encoding` says of each row holds of every instruction. -/
theorem encoding_statement (i : Instr) : Laws.Encoding.Statement i := by
  cases i with
  | hlt => exact Laws.Encoding.hlt
  | ldi op1 op2 => exact Laws.Encoding.ldi op1 op2
  | prn op1 => exact Laws.Encoding.prn op1
  | mul op1 op2 => exact Laws.Encoding.mul op1 op2
  | push op1 => exact Laws.Encoding.push op1
  | pop op1 => exact Laws.Encoding.pop op1
  | call op1 => exact Laws.Encoding.call op1
  | ret => exact Laws.Encoding.ret
  | jmp op1 => exact Laws.Encoding.jmp op1
  | jeq op1 => exact Laws.Encoding.jeq op1
  | jne op1 => exact Laws.Encoding.jne op1
  | cmp op1 op2 => exact Laws.Encoding.cmp op1 op2
  | unknown opc => exact Laws.Encoding.unknown opc

/-- The operand bytes of a known opcode are as many as its top two bits say (R50, R54). -/
theorem length_operands_of_known {i : Instr} (hwf : i.wf = true) (hk : isKnown i.opcode = true) :
    i.operands.length = i.opcode.toNat / 64 := by
  obtain ⟨-, hlen⟩ := encoding_statement i
  exact Nat.succ.inj ((hlen hk hwf).trans (opcodeLength_eq i.opcode))

end Sys2Proof
end

section
/-! The first fault of a step, in the fixed order of checks (60_exceptions.md rules R142, R143). `EndsWith` says what a
step that meets a given fault, or none, answers. The checks that follow the fetch are `State.operationFault`, and each
instruction is followed operation by operation, in the order of its meaning's checks. -/

namespace Sys2Proof.Machine

/-! ### Bytes inside memory -/

theorem Memory.length_bytesFrom (m : Memory) (a n : Nat) : (m.bytesFrom a n).length = min n (Config.memSize - a) := by
  induction n generalizing a with
  | zero => simp [Memory.bytesFrom]
  | succ n ih =>
    rw [Memory.bytesFrom_succ]
    split
    · rw [List.length_cons, ih]
      omega
    · simp only [List.length_nil]
      omega

/-- Bytes that stand in memory end inside it. -/
theorem Memory.end_le_of_holds {m : Memory} {a : Nat} {b : Byte} {bytes : List Byte} (h : m.Holds a (b :: bytes)) :
    a + bytes.length < 255 := by
  have hlen := (congrArg List.length h).symm.trans (Memory.length_bytesFrom ..)
  rw [List.length_cons, Config.memSize] at hlen
  omega

theorem Memory.read_of_holds {m : Memory} {a k : Nat} {b : Byte} {bytes : List Byte} (h : m.Holds a bytes)
    (hk : bytes[k]? = some b) : m.read (a + k) = b := by
  induction bytes generalizing a k with
  | nil => cases hk
  | cons c bytes ih =>
    obtain ⟨-, hread, hrest⟩ := (Memory.holds_cons ..).mp h
    cases k with
    | zero =>
      cases hk
      exact hread
    | succ k =>
      rw [← ih hrest hk, Nat.add_right_comm, Nat.add_assoc]

/-! ### The checks -/

/-- One check: where it applies and the number is not below the bound, its fault with that number. -/
def check (applies : Bool) (code : Fault) (bound n : Nat) : Option FaultRecord :=
  if applies ∧ bound ≤ n then some { code := code, info := n } else none

theorem check_or (applies : Bool) (code : Fault) (bound n : Nat) (later : Option FaultRecord) :
    (check applies code bound n).or later =
      if applies ∧ bound ≤ n then some { code := code, info := n } else later := by
  unfold check
  split <;> rfl

/-- The checks that follow the fetch, in their order (R143): the register operands, then the stack. -/
def State.operationFault (s : State) (opc op1 op2 : Byte) : Option FaultRecord :=
  (check (indexesOp1 opc) .regIndex 8 op1.toNat).or <|
  (check (indexesOp2 opc) .regIndex 8 op2.toNat).or <|
  (check (readsStack opc) .stackReadBounds 255 s.popAddr.toNat).or <|
  (check (writesStack opc) .stackWriteBounds 255 s.pushAddr.toNat).or none

theorem State.pushAddr_toNat_mod (s : State) : s.pushAddr.toNat = ((s.reg 7).toNat + 255) % 256 := by
  rw [Nat.add_comm]
  exact BitVec.toNat_sub ..

/-! ### `State.firstFault`, an equation per case -/

theorem State.firstFault_past {s : State} (h : 255 ≤ s.pc.toNat) :
    s.firstFault = some { code := .fetchBounds, info := s.pc.toNat } := if_pos h

theorem State.firstFault_unknown {s : State} (h : s.pc.toNat < 255) (hk : isKnown (s.mem.read s.pc.toNat) = false) :
    s.firstFault = none := by
  simp [State.firstFault, h, hk]

section
variable {s : State} (hk : isKnown (s.mem.read s.pc.toNat) = true)
include hk

theorem State.firstFault_noOperand1 (hlen : 1 ≤ (s.mem.read s.pc.toNat).toNat / 64) (h : s.pc.toNat = 254) :
    s.firstFault = some { code := .operandBounds, info := s.pc.toNat + 1 } := by
  simp only [h] at hk hlen
  simp [State.firstFault, h, hk, hlen]

theorem State.firstFault_noOperand2 (hlen : 2 ≤ (s.mem.read s.pc.toNat).toNat / 64) (h : s.pc.toNat = 253) :
    s.firstFault = some { code := .operandBounds, info := s.pc.toNat + 2 } := by
  simp only [h] at hk hlen
  simp [State.firstFault, h, hk, hlen]

/-- Where the bytes that the opcode announces exist, the checks that follow the fetch decide. -/
theorem State.firstFault_fetched (h : s.pc.toNat + (s.mem.read s.pc.toNat).toNat / 64 < 255) :
    s.firstFault =
      s.operationFault (s.mem.read s.pc.toNat) (s.mem.read (s.pc.toNat + 1)) (s.mem.read (s.pc.toNat + 2)) := by
  have hpc : ¬ 255 ≤ s.pc.toNat := by omega
  have h1 : ¬ (1 ≤ (s.mem.read s.pc.toNat).toNat / 64 ∧ 255 ≤ s.pc.toNat + 1) := by omega
  have h2 : ¬ (2 ≤ (s.mem.read s.pc.toNat).toNat / 64 ∧ 255 ≤ s.pc.toNat + 2) := by omega
  simp only [State.operationFault, check_or, State.pushAddr_toNat_mod]
  simp only [State.firstFault, Config.memSize, if_neg hpc, if_neg h1, if_neg h2, hk]
  rfl

end

/-! ### What an attempt raises -/

/-- The fault an attempt raises, if any. -/
def Attempt.raised {α : Type} : Attempt α → Option FaultRecord
  | .ok _ => none
  | .error f => some f

theorem raised_regOperand (b : Byte) : (regOperand b).raised = check true .regIndex 8 b.toNat := by
  rcases regOperand_cases b with ⟨h, e⟩ | ⟨h, e⟩ <;> simp [e, Attempt.raised, check, h]

theorem raised_stackRead (s : State) (a : RegWord) :
    (s.stackRead a).raised = check true .stackReadBounds 255 a.toNat := by
  rcases s.stackRead_cases a with ⟨h, e⟩ | ⟨rfl, e⟩
  · simp [e, Attempt.raised, check, outside_iff, h]
  · rfl

theorem raised_stackWrite (s : State) (a : RegWord) (v : Byte) :
    (s.stackWrite a v).raised = check true .stackWriteBounds 255 a.toNat := by
  rcases s.stackWrite_cases a v with ⟨h, e⟩ | ⟨rfl, e⟩
  · simp [e, Attempt.raised, check, outside_iff, h]
  · rfl

theorem fault_of_push {s t : State} {a : RegWord} {v : Byte} (h : s.decSp.stackWrite a v = .ok t) :
    t.fault = s.fault := by
  rcases s.decSp.stackWrite_cases a v with ⟨-, e⟩ | ⟨-, e⟩ <;> cases e.symm.trans h
  rfl

/-! ### How an instruction ends -/

/-- The outcome of an instruction begun in `s`: without a fault it leaves the latch as it is; with one it is `s` with
that fault taken (R141, R144). -/
inductive EndsWith (s : State) : Option FaultRecord → Result → Prop
  | clean {t : State} (h : t.fault = s.fault) : EndsWith s none (.next t)
  | faulted (f : FaultRecord) : EndsWith s (some f) (.next (takeFault f s))

/-- From a clear latch, the fault latched is the one met, and it was taken. -/
theorem EndsWith.latched {s : State} {fault : Option FaultRecord} {r : Result} (h : EndsWith s fault r)
    (hclear : s.fault = none) :
    ∃ t, r = .next t ∧ t.fault = fault ∧ ∀ f, t.fault = some f → t = takeFault f s := by
  cases h with
  | @clean t h =>
    have hnone := h.trans hclear
    refine ⟨t, rfl, hnone, fun f hf => ?_⟩
    cases hnone.symm.trans hf
  | faulted f =>
    refine ⟨takeFault f s, rfl, rfl, fun g hg => ?_⟩
    cases hg
    rfl

/-- An operation's own check comes before those of what follows it. -/
theorem endsWith_bind {α : Type} {s : State} {x : Attempt α} {k : α → Attempt State} {f g : Option FaultRecord}
    (hx : x.raised = f) (hk : ∀ a, x = .ok a → EndsWith s g (conclude s (k a))) :
    EndsWith s (f.or g) (conclude s (x >>= k)) := by
  subst hx
  cases x with
  | ok a => exact hk a rfl
  | error f => exact .faulted f

/-- A check that does not apply leaves the outcome to the later ones. -/
theorem EndsWith.skip {s : State} {code : Fault} {bound n : Nat} {later : Option FaultRecord} {r : Result}
    (h : EndsWith s later r) : EndsWith s ((check false code bound n).or later) r := h

/-- An instruction of a known opcode makes the checks of that opcode, in their order, on its operand bytes. -/
theorem exec_endsWith {i : Instr} (s : State) {op1 op2 : Byte} (hwf : i.wf = true) (hk : isKnown i.opcode = true)
    (h1 : ∀ b, i.operands[0]? = some b → op1 = b) (h2 : ∀ b, i.operands[1]? = some b → op2 = b) :
    EndsWith s (s.operationFault i.opcode op1 op2) (exec i s) := by
  cases i with
  | hlt => exact .clean rfl
  | ldi a b =>
    cases h1 a rfl
    exact endsWith_bind (raised_regOperand op1) fun _ _ => .clean rfl
  | prn a =>
    cases h1 a rfl
    exact endsWith_bind (raised_regOperand op1) fun _ _ => .clean rfl
  | mul a b =>
    cases h1 a rfl
    cases h2 b rfl
    exact endsWith_bind (raised_regOperand op1) fun _ _ => endsWith_bind (raised_regOperand op2) fun _ _ => .clean rfl
  | push a =>
    cases h1 a rfl
    exact endsWith_bind (raised_regOperand op1) fun _ _ => .skip <| .skip <|
      endsWith_bind (raised_stackWrite ..) fun _ hu => .clean ((State.fault_advance ..).trans (fault_of_push hu))
  | pop a =>
    cases h1 a rfl
    exact endsWith_bind (raised_regOperand op1) fun _ _ => .skip <|
      endsWith_bind (raised_stackRead ..) fun _ _ => .clean rfl
  | call a =>
    cases h1 a rfl
    exact endsWith_bind (raised_regOperand op1) fun _ _ => .skip <| .skip <|
      endsWith_bind (raised_stackWrite ..) fun _ hu => .clean ((State.fault_jump ..).trans (fault_of_push hu))
  | ret => exact .skip <| .skip <| endsWith_bind (raised_stackRead ..) fun _ _ => .clean rfl
  | jmp a =>
    cases h1 a rfl
    exact endsWith_bind (raised_regOperand op1) fun _ _ => .clean rfl
  | jeq a =>
    cases h1 a rfl
    refine endsWith_bind (raised_regOperand op1) fun _ _ => .clean ?_
    split <;> rfl
  | jne a =>
    cases h1 a rfl
    refine endsWith_bind (raised_regOperand op1) fun _ _ => .clean ?_
    split <;> rfl
  | cmp a b =>
    cases h1 a rfl
    cases h2 b rfl
    exact endsWith_bind (raised_regOperand op1) fun _ _ => endsWith_bind (raised_regOperand op2) fun _ _ => .clean rfl
  | unknown opc =>
    have hunknown : isKnown opc = false := by simpa [Instr.wf] using hwf
    cases hk.symm.trans hunknown

/-- An unknown opcode's instruction makes no check (R55, R76). -/
theorem exec_unknown_endsWith {i : Instr} (hk : isKnown i.opcode = false) (s : State) :
    EndsWith s none (exec i s) := by
  cases i with
  | unknown opc => exact .clean rfl
  | _ => cases hk

/-! ### How a step ends -/

/-- What decoding lacks where the opcode itself can be fetched. -/
theorem State.lacks_of_decode_error {s : State} (hpc : s.pc.toNat < 255) {e : DecodeError}
    (h : decode s.fetchBytes = .error e) : isKnown (s.mem.read s.pc.toNat) = true ∧
      e.Lacks (s.mem.read s.pc.toNat) (s.mem.bytesFrom (s.pc.toNat + 1) 3) := by
  rw [State.fetchBytes_head hpc] at h
  exact decodeOpcode_lacks h

/-- A fetch that fails raises the first fault: no byte at `pc`, or the first operand byte that is missing. -/
theorem State.firstFault_of_fetchFault {s : State} {f : FaultRecord} (h : s.fetchInstr = .error f) :
    s.firstFault = some f := by
  by_cases hpc : s.pc.toNat < 255
  · have hbytes := Memory.length_bytesFrom s.mem (s.pc.toNat + 1) 3
    rcases s.fetchInstr_cases with ⟨i, rest, -, e⟩ | ⟨hd, -⟩ | ⟨hd, e⟩ | ⟨hd, e⟩
    · cases e.symm.trans h
    · obtain ⟨-, hlacks⟩ := State.lacks_of_decode_error hpc hd
      exact hlacks.elim
    · cases e.symm.trans h
      obtain ⟨hk, hlen, hnone⟩ := State.lacks_of_decode_error hpc hd
      rw [hnone, Config.memSize] at hbytes
      exact State.firstFault_noOperand1 hk hlen (by omega)
    · cases e.symm.trans h
      obtain ⟨hk, hlen, hone⟩ := State.lacks_of_decode_error hpc hd
      rw [hone, Config.memSize] at hbytes
      exact State.firstFault_noOperand2 hk hlen (by omega)
  · have hpast := Nat.le_of_not_lt hpc
    cases (State.fetchInstr_past hpast).symm.trans h
    exact State.firstFault_past hpast

/-- A fetched instruction ends with the first fault. -/
theorem exec_endsWith_firstFault {s : State} {i : Instr} (h : s.fetchInstr = .ok i) :
    EndsWith s s.firstFault (exec i s) := by
  obtain ⟨hwf, hpc, hopc⟩ := State.opcode_of_fetchInstr h
  have hholds := State.holds_of_fetchInstr h
  cases hk : isKnown i.opcode with
  | false =>
    rw [State.firstFault_unknown hpc (by rw [hopc, hk])]
    exact exec_unknown_endsWith hk s
  | true =>
    have hend := Memory.end_le_of_holds hholds
    rw [length_operands_of_known hwf hk, ← hopc] at hend
    rw [State.firstFault_fetched (by rw [hopc, hk]) hend, hopc]
    exact exec_endsWith s hwf hk (fun _ hb => Memory.read_of_holds (k := 1) hholds hb)
      fun _ hb => Memory.read_of_holds (k := 2) hholds hb

/-- A step of a running machine ends with the first fault, or without one where there is none. -/
theorem step_endsWith {s : State} (hrun : s.run = true) : EndsWith s s.firstFault (step s) := by
  rcases step_cases s with ⟨hstop, -⟩ | ⟨-, f, hf, e⟩ | ⟨-, i, hi, e⟩
  · cases hstop.symm.trans hrun
  · rw [e, State.firstFault_of_fetchFault hf]
    exact .faulted f
  · rw [e]
    exact exec_endsWith_firstFault hi

/-- Settles O25: the latch was clear, so what `step_endsWith` says of it is the first fault, or none. -/
theorem stepLatchesTheFirstFault : Obligations.StepLatchesTheFirstFault := by
  refine ⟨rfl, fun s hrun hclear => ?_⟩
  obtain ⟨t, e, hfault, -⟩ := (step_endsWith hrun).latched hclear
  exact ⟨t, e, hfault⟩

end Sys2Proof.Machine
end

section
/-! Faults are precise, and a faulted machine stays as it is (60_exceptions.md rules R141, R144, R146). -/

namespace Sys2Proof.Machine

theorem stepsTo_self_of_stopped {s : State} (h : s.run = false) (k : Nat) : StepsTo k s s := by
  induction k with
  | zero => rfl
  | succ k ih => exact (stepsTo_succ ..).mpr ⟨s, step_stopped h, ih⟩

/-- Settles O26: a stopped machine latches nothing; a step of a running one that latches a fault took it, by
`step_endsWith`. -/
theorem faultsArePrecise : Obligations.FaultsArePrecise := by
  intro s t f hclear hstep hlatched
  have htaken : t = takeFault f s := by
    cases hrun : s.run with
    | false =>
      cases (step_stopped hrun).symm.trans hstep
      cases hclear.symm.trans hlatched
    | true =>
      obtain ⟨u, e, -, htaken⟩ := (step_endsWith hrun).latched hclear
      cases e.symm.trans hstep
      exact htaken f hlatched
  subst htaken
  exact ⟨rfl, stepsTo_self_of_stopped rfl⟩

/-! ### The host and the latch -/

/-- Where a host operation answers, `RUN` and `FAULT` are as in `s`. -/
def AnswersWithControlOf (s : State) (r : HostResult) : Prop := ∀ t a, r = .next (t, a) → SameControl s t

section
variable {s : State}

theorem AnswersWithControlOf.refused (e : Refusal) : AnswersWithControlOf s (.refused e) := nofun

theorem AnswersWithControlOf.next {t : State} (h : SameControl s t) (a : HostAnswer) :
    AnswersWithControlOf s (.next (t, a)) := by
  intro u b e
  cases e
  exact h

theorem AnswersWithControlOf.ite {c : Prop} [Decidable c] {r r' : HostResult} (h : AnswersWithControlOf s r)
    (h' : AnswersWithControlOf s r') : AnswersWithControlOf s (if c then r else r') := by
  split
  · exact h
  · exact h'

/-- A latched fault makes `run` do nothing (R132). -/
theorem hostStep_run_faulted (h : s.Faulted) : hostStep .run s = .next (s, .done) := by
  obtain ⟨hrun, f, hf⟩ := h
  simp [hostStep, whenStopped, hostRun, hrun, hf]

/-- In a faulted machine no host operation but reset writes `RUN` or `FAULT`. -/
theorem hostStep_answersWithControlOf (h : s.Faulted) {op : HostOp} (hop : ∀ memInit, op ≠ .reset memInit) :
    AnswersWithControlOf s (hostStep op s) := by
  have hmem (m : Memory) : AnswersWithControlOf s (.next (s.setMem m, .done)) := .next ⟨rfl, rfl⟩ _
  cases op with
  | reset memInit => exact absurd rfl (hop memInit)
  | load program => exact .ite (.refused _) (.ite (.refused _) (.ite (hmem _) (.refused _)))
  | ramWrite a v => exact .ite (.refused _) (.ite (.ite (hmem _) (.refused _)) (.refused _))
  | ramRead a => exact .ite (.refused _) (.ite (.next ⟨rfl, rfl⟩ _) (.refused _))
  | run =>
    rw [hostStep_run_faulted h]
    exact .next ⟨rfl, rfl⟩ _
  | observe => exact .ite (.refused _) (.next ⟨rfl, rfl⟩ _)

end

/-- Settles O27: a faulted machine is stopped, so it takes no step; of the host's operations reset alone
writes the latch. -/
theorem faultedMachineStaysUntilReset : Obligations.FaultedMachineStaysUntilReset := by
  intro s h
  have hrun : s.run = false := h.1
  refine ⟨stepsTo_self_of_stopped hrun, hostStep_run_faulted h, fun op t a e hop => ?_⟩
  obtain ⟨hrun', hfault⟩ := hostStep_answersWithControlOf h hop t a e
  exact ⟨hfault, hrun'.trans hrun⟩

end Sys2Proof.Machine
end

section
/-! Decoding and encoding agree, and decoding fails only for want of an operand byte (30_encoding.md sections 1, 3
and 4). -/

namespace Sys2Proof

/-- The decoder finds an instruction's encoding whatever bytes follow it. -/
theorem decode_encode_append {i : Instr} (hwf : i.wf = true) (rest : List Byte) :
    decode (encode i ++ rest) = .ok (i, rest) := by
  cases i with
  | unknown opc => exact decodeOpcode_unknown (opcode := opc) (by simpa [Instr.wf] using hwf) rest
  | _ => rfl

/-- Settles O16: what the decoder answers is well formed and accounts for its bytes, and it finds every well-formed
instruction's encoding. -/
theorem decodeAndEncodeAgree : Obligations.DecodeAndEncodeAgree := by
  intro bytes i rest
  constructor
  · exact fun h => ⟨wf_of_decode h, encode_append_of_decode h⟩
  · rintro ⟨hwf, rfl⟩
    exact decode_encode_append hwf rest

/-- A decoded instruction has the opcode byte it was read from, and of a known opcode it took the operand bytes that the
top two bits announce. -/
theorem opcode_and_length_of_decode {opc : Byte} {bytes rest : List Byte} {i : Instr}
    (h : decode (opc :: bytes) = .ok (i, rest)) :
    i.opcode = opc ∧ (isKnown opc = true → bytes.length = opc.toNat / 64 + rest.length) := by
  obtain ⟨rfl, rfl⟩ := List.cons.inj (encode_append_of_decode h)
  refine ⟨rfl, fun hk => ?_⟩
  rw [List.append_eq, List.length_append, length_operands_of_known (wf_of_decode h) hk]

/-- Settles O15: the lengths are those of the operand bytes taken; the last row of the decoder takes none. -/
theorem lengthIsTheTopTwoBitsPlusOne : Obligations.LengthIsTheTopTwoBitsPlusOne := by
  refine ⟨opcodeLength_eq, fun opc bytes i rest h => ⟨fun hk => ?_, fun hk => ?_⟩⟩
  · obtain ⟨-, hlen⟩ := opcode_and_length_of_decode h
    rw [List.length_cons, hlen hk, opcodeLength_eq]
    omega
  · cases (decodeOpcode_unknown hk bytes).symm.trans h
    rfl

/-- No row of the table has more than two operand bytes (R51, R54). -/
theorem operandCount_le_of_known {opc : Byte} (h : isKnown opc = true) : opc.toNat / 64 ≤ 2 := by
  have hrows : ∀ o ∈ knownOpcodes, o.toNat / 64 ≤ 2 := by decide
  exact hrows opc ((isKnown_iff opc).mp h)

/-- Settles O17: the decoder either answers an instruction, which took the bytes announced, or lacks an announced
operand byte; the byte counts tell the cases apart. -/
theorem decodingFailsOnlyWhereBytesEnd : Obligations.DecodingFailsOnlyWhereBytesEnd := by
  intro opc bytes
  rw [opcodeLength_eq]
  cases hd : decode (opc :: bytes) with
  | ok answer =>
    obtain ⟨i, rest⟩ := answer
    obtain ⟨hopc, hlen⟩ := opcode_and_length_of_decode hd
    refine ⟨iff_of_true ⟨i, rest, rfl, hopc⟩ fun hk => ?_, iff_of_false nofun fun ⟨hk, h2, h0⟩ => ?_,
      iff_of_false nofun fun ⟨hk, h3, h1⟩ => ?_, nofun⟩
    · have := hlen hk
      omega
    · have := hlen hk
      omega
    · have := hlen hk
      omega
  | error e =>
    obtain ⟨hk, hlacks⟩ := decodeOpcode_lacks hd
    have hle := operandCount_le_of_known hk
    cases e with
    | noOpcode => exact hlacks.elim
    | noOperand1 =>
      obtain ⟨hlen, hnone⟩ := hlacks
      exact ⟨iff_of_false nofun fun h => absurd (h hk) (by omega), iff_of_true rfl ⟨hk, by omega, hnone⟩,
        iff_of_false nofun fun ⟨_, _, hone⟩ => by omega, nofun⟩
    | noOperand2 =>
      obtain ⟨hlen, hone⟩ := hlacks
      exact ⟨iff_of_false nofun fun h => absurd (h hk) (by omega), iff_of_false nofun fun ⟨_, _, hnone⟩ => by omega,
        iff_of_true rfl ⟨hk, by omega, hone⟩, nofun⟩

theorem length_encode_le (i : Instr) : (encode i).length ≤ Config.maxILen := by
  cases i <;> simp [encode, Instr.operands]

end Sys2Proof
end

section
/-! The step of a running machine is the instruction at `pc`; a stopped one does nothing (40_engine_cycle.md
section 1). -/

namespace Sys2Proof.Machine

/-- Settles O18: the bytes from `pc` on are the ones the fetch decodes. -/
theorem stepExecutesTheDecodedInstruction : Obligations.StepExecutesTheDecodedInstruction := by
  intro s i rest hrun hd
  have hfetch : s.fetchInstr = .ok i := by
    unfold State.fetchInstr State.fetchBytes
    rw [hd]
  exact step_fetched hrun hfetch

/-- Settles O19: an encoding in memory at `pc` heads the fetched bytes, and the decoder finds it there. -/
theorem stepExecutesTheEncodedInstruction : Obligations.StepExecutesTheEncodedInstruction := by
  intro s i hrun hwf hholds
  obtain ⟨rest, hbytes⟩ := Memory.bytesFrom_of_holds hholds (length_encode_le i)
  exact stepExecutesTheDecodedInstruction s i rest hrun (hbytes ▸ decode_encode_append hwf rest)

/-- Settles O20: `step_stopped`, and any number of such steps. -/
theorem stoppedEngineDoesNothing : Obligations.StoppedEngineDoesNothing :=
  fun _ hrun => ⟨step_stopped hrun, stepsTo_self_of_stopped hrun⟩

end Sys2Proof.Machine
end

section
/-! What an instruction does when it completes, said once for all instructions, and what a step can do. The rules about
the whole machine are read off these. -/

namespace Sys2Proof.Machine

/-- The state an instruction begun in `s` ends in when it takes no fault. -/
inductive Completes (s : State) : Instr → State → Prop
  | hlt : Completes s .hlt ((s.setRun false).advance 1)
  | ldi {op1 : Byte} (h : op1.toNat < 8) (op2 : Byte) :
      Completes s (.ldi op1 op2) ((s.setReg ⟨op1.toNat, h⟩ op2).advance 3)
  | prn {op1 : Byte} (h : op1.toNat < 8) : Completes s (.prn op1) ((s.emit (s.reg ⟨op1.toNat, h⟩)).advance 2)
  | mul {op1 op2 : Byte} (h1 : op1.toNat < 8) (h2 : op2.toNat < 8) : Completes s (.mul op1 op2)
      ((s.setReg ⟨op1.toNat, h1⟩ (s.reg ⟨op1.toNat, h1⟩ * s.reg ⟨op2.toNat, h2⟩)).advance 3)
  | push {op1 : Byte} (h : op1.toNat < 8) (hsp : s.reg 7 ≠ 0#8) : Completes s (.push op1)
      ((s.decSp.setMem (s.mem.write s.pushAddr.toNat (s.decSp.reg ⟨op1.toNat, h⟩))).advance 2)
  | pop {op1 : Byte} (h : op1.toNat < 8) (hsp : s.reg 7 ≠ 255#8) : Completes s (.pop op1)
      ((s.setReg ⟨op1.toNat, h⟩ (s.mem.read (s.reg 7).toNat)).incSp.advance 2)
  | call {op1 : Byte} (h : op1.toNat < 8) (hsp : s.reg 7 ≠ 0#8) : Completes s (.call op1)
      ((s.decSp.setMem (s.mem.write s.pushAddr.toNat s.returnAddr)).jump (s.decSp.reg ⟨op1.toNat, h⟩))
  | ret (hsp : s.reg 7 ≠ 255#8) : Completes s .ret
      ((s.setReg 0 (s.mem.read (s.reg 7).toNat)).incSp.jump (s.mem.read (s.reg 7).toNat))
  | jmp {op1 : Byte} (h : op1.toNat < 8) : Completes s (.jmp op1) (s.jump (s.reg ⟨op1.toNat, h⟩))
  | jeq {op1 : Byte} (h : op1.toNat < 8) : Completes s (.jeq op1)
      (s.setPc (if s.flags.eq then zext9 (s.reg ⟨op1.toNat, h⟩) else s.pc + 2#9))
  | jne {op1 : Byte} (h : op1.toNat < 8) : Completes s (.jne op1)
      (s.setPc (if s.flags.eq then s.pc + 2#9 else zext9 (s.reg ⟨op1.toNat, h⟩)))
  | cmp {op1 op2 : Byte} (h1 : op1.toNat < 8) (h2 : op2.toNat < 8) : Completes s (.cmp op1 op2)
      ((s.setFlags (compareFlags (s.reg ⟨op1.toNat, h1⟩) (s.reg ⟨op2.toNat, h2⟩) s.flags)).advance 3)
  | unknown (opc : Byte) : Completes s (.unknown opc) (s.advance (opcodeLength opc))

/-- Every instruction in every state answers a next state: it completes, or the state it began in takes a fault. -/
theorem exec_cases (i : Instr) (s : State) :
    (∃ t, exec i s = .next t ∧ Completes s i t) ∨ ∃ f, exec i s = .next (takeFault f s) := by
  cases i with
  | hlt => exact .inl ⟨_, exec_hlt s, .hlt⟩
  | ldi op1 op2 =>
    rcases exec_ldi_cases op1 op2 s with ⟨h, e⟩ | ⟨-, e⟩
    · exact .inl ⟨_, e, .ldi h op2⟩
    · exact .inr ⟨_, e⟩
  | prn op1 =>
    rcases exec_prn_cases op1 s with ⟨h, e⟩ | ⟨-, e⟩
    · exact .inl ⟨_, e, .prn h⟩
    · exact .inr ⟨_, e⟩
  | mul op1 op2 =>
    rcases exec_mul_cases op1 op2 s with ⟨h1, h2, e⟩ | ⟨-, e⟩ | ⟨-, -, e⟩
    · exact .inl ⟨_, e, .mul h1 h2⟩
    · exact .inr ⟨_, e⟩
    · exact .inr ⟨_, e⟩
  | push op1 =>
    rcases exec_push_cases op1 s with ⟨h, hsp, e⟩ | ⟨-, -, e⟩ | ⟨-, e⟩
    · exact .inl ⟨_, e, .push h hsp⟩
    · exact .inr ⟨_, e⟩
    · exact .inr ⟨_, e⟩
  | pop op1 =>
    rcases exec_pop_cases op1 s with ⟨h, hsp, e⟩ | ⟨-, -, e⟩ | ⟨-, e⟩
    · exact .inl ⟨_, e, .pop h hsp⟩
    · exact .inr ⟨_, e⟩
    · exact .inr ⟨_, e⟩
  | call op1 =>
    rcases exec_call_cases op1 s with ⟨h, hsp, e⟩ | ⟨-, -, e⟩ | ⟨-, e⟩
    · exact .inl ⟨_, e, .call h hsp⟩
    · exact .inr ⟨_, e⟩
    · exact .inr ⟨_, e⟩
  | ret =>
    rcases exec_ret_cases s with ⟨hsp, e⟩ | ⟨-, e⟩
    · exact .inl ⟨_, e, .ret hsp⟩
    · exact .inr ⟨_, e⟩
  | jmp op1 =>
    rcases exec_jmp_cases op1 s with ⟨h, e⟩ | ⟨-, e⟩
    · exact .inl ⟨_, e, .jmp h⟩
    · exact .inr ⟨_, e⟩
  | jeq op1 =>
    rcases exec_jeq_cases op1 s with ⟨h, e⟩ | ⟨-, e⟩
    · rw [ite_jump_advance] at e
      exact .inl ⟨_, e, .jeq h⟩
    · exact .inr ⟨_, e⟩
  | jne op1 =>
    rcases exec_jne_cases op1 s with ⟨h, e⟩ | ⟨-, e⟩
    · rw [ite_advance_jump] at e
      exact .inl ⟨_, e, .jne h⟩
    · exact .inr ⟨_, e⟩
  | cmp op1 op2 =>
    rcases exec_cmp_cases op1 op2 s with ⟨h1, h2, e⟩ | ⟨-, e⟩ | ⟨-, -, e⟩
    · exact .inl ⟨_, e, .cmp h1 h2⟩
    · exact .inr ⟨_, e⟩
    · exact .inr ⟨_, e⟩
  | unknown opc => exact .inl ⟨_, exec_unknown opc s, .unknown opc⟩

theorem completes_or_faults {i : Instr} {s t : State} (h : exec i s = .next t) :
    Completes s i t ∨ ∃ f, t = takeFault f s := by
  rcases exec_cases i s with ⟨u, e, hu⟩ | ⟨f, e⟩ <;> cases e.symm.trans h
  · exact .inl hu
  · exact .inr ⟨f, rfl⟩

/-- Everything a step can do: nothing while stopped; otherwise take a fault, of the fetch or of the instruction, or
complete the fetched instruction. -/
theorem step_next_cases {s t : State} (h : step s = .next t) :
    (s.run = false ∧ t = s) ∨ (∃ f, t = takeFault f s) ∨
      (s.run = true ∧ ∃ i, s.fetchInstr = .ok i ∧ Completes s i t) := by
  rcases step_cases s with ⟨hrun, e⟩ | ⟨-, f, -, e⟩ | ⟨hrun, i, hi, e⟩
  · cases e.symm.trans h
    exact .inl ⟨hrun, rfl⟩
  · cases e.symm.trans h
    exact .inr (.inl ⟨f, rfl⟩)
  · rcases completes_or_faults (e.symm.trans h) with hc | hf
    · exact .inr (.inr ⟨hrun, i, hi, hc⟩)
    · exact .inr (.inl hf)

/-! ### What a completed instruction leaves unchanged -/

section
variable {i : Instr} {s t : State}

theorem Completes.fault_eq (h : Completes s i t) : t.fault = s.fault := by
  cases h <;> rfl

/-- `HLT` alone writes `RUN`. -/
theorem Completes.run_cases (h : Completes s i t) : i = .hlt ∨ t.run = s.run := by
  cases h with
  | hlt => exact .inl rfl
  | _ => exact .inr rfl

/-- `CMP` alone writes the flags, and it clears none. -/
theorem Completes.flags_cases (h : Completes s i t) :
    t.flags = s.flags ∨ i.opcode = 0xA7#8 ∧ ∃ a b, t.flags = compareFlags a b s.flags := by
  cases h with
  | cmp h1 h2 => exact .inr ⟨rfl, _, _, rfl⟩
  | _ => exact .inl rfl

/-- `PUSH` and `CALL` alone write memory, at the address below the stack pointer. -/
theorem Completes.mem_cases (h : Completes s i t) :
    t.mem = s.mem ∨ (i.opcode = 0x45#8 ∨ i.opcode = 0x50#8) ∧ s.reg 7 ≠ 0#8 ∧
      ∃ v, t.mem = s.mem.write s.pushAddr.toNat v := by
  cases h with
  | push h hsp => exact .inr ⟨.inl rfl, hsp, _, rfl⟩
  | call h hsp => exact .inr ⟨.inr rfl, hsp, _, rfl⟩
  | _ => exact .inl rfl

end

/-! ### Runs of steps -/

/-- What every step keeps, every number of steps keeps. -/
theorem stepsTo_keeps {P : State → Prop} (hstep : ∀ s t, P s → step s = .next t → P t) {k : Nat} {s t : State}
    (hs : P s) (h : StepsTo k s t) : P t := by
  induction k generalizing s with
  | zero => exact (stepsTo_zero s t).mp h ▸ hs
  | succ k ih =>
    obtain ⟨u, hu, hrest⟩ := (stepsTo_succ k s t).mp h
    exact ih (hstep s u hs hu) hrest

/-- One step after `k`. -/
theorem stepsTo_succ_of_step {k : Nat} {s t u : State} (h : StepsTo k s t) (hstep : step t = .next u) :
    StepsTo (k + 1) s u := by
  induction k generalizing s with
  | zero => exact (stepsTo_succ 0 s u).mpr ⟨u, (stepsTo_zero s t).mp h ▸ hstep, rfl⟩
  | succ k ih =>
    obtain ⟨v, hv, hrest⟩ := (stepsTo_succ k s t).mp h
    exact (stepsTo_succ (k + 1) s u).mpr ⟨v, hv, ih hrest⟩

/-- A state that steps to itself is where it leads. -/
theorem stepsTo_self {s : State} (h : step s = .next s) (k : Nat) : StepsTo k s s := by
  induction k with
  | zero => rfl
  | succ k ih => exact stepsTo_succ_of_step ih h

/-- Settles O22: `exec_cases` names the next state of every instruction; a fetch that fails takes its fault. -/
theorem everyStepAnswersANextState : Obligations.EveryStepAnswersANextState := by
  have hexec (i : Instr) (s : State) : ∃ t, exec i s = .next t := by
    rcases exec_cases i s with ⟨t, e, -⟩ | ⟨f, e⟩
    · exact ⟨t, e⟩
    · exact ⟨takeFault f s, e⟩
  have hstep (s : State) : ∃ t, step s = .next t := by
    rcases step_cases s with ⟨-, e⟩ | ⟨-, f, -, e⟩ | ⟨-, i, -, e⟩
    · exact ⟨s, e⟩
    · exact ⟨takeFault f s, e⟩
    · exact e ▸ hexec i s
  refine ⟨hexec, fun k s => ?_⟩
  induction k with
  | zero => exact ⟨s, rfl⟩
  | succ k ih =>
    obtain ⟨t, ht⟩ := ih
    obtain ⟨u, hu⟩ := hstep t
    exact ⟨u, stepsTo_succ_of_step ht hu⟩

end Sys2Proof.Machine
end

section
/-! The invariant (10_state.md section 3; 50_host_interface.md section 1; 60_exceptions.md section 2). -/

namespace Sys2Proof.Machine

/-- The first fault is one of R142's, with its info in range, where `pc` is at most 258. -/
theorem State.firstFault_legal {s : State} {f : FaultRecord} (hpc : s.pc.toNat < 259) (h : s.firstFault = some f) :
    f.legal = true := by
  have hop1 := byte_toNat_lt (s.mem.read (s.pc.toNat + 1))
  have hop2 := byte_toNat_lt (s.mem.read (s.pc.toNat + 2))
  have hsp := regWord_toNat_lt (s.reg Config.spIndex)
  simp only [State.firstFault] at h
  -- every check that fails gives its number's lower bound; the widths of the words give the upper one
  split_ifs at h <;> cases h <;> refine decide_eq_true ?_ <;>
    simp only [Config.memSize, Config.nregs, Config.maxILen, Config.cellBits, Config.xlen] at * <;> omega

/-- Where an instruction without a fault leaves `pc`: from an address inside memory at most 258 (R15). -/
theorem exec_pc_lt {i : Instr} {s t : State} (hwf : i.wf = true) (hpc : s.pc.toNat < 255) (hexec : exec i s = .next t)
    (hf : t.fault = none) : t.pc.toNat < 259 := by
  rcases exec_pc_cases hwf hexec hf with ⟨hadv, -⟩ | ⟨-, j, hj⟩
  · have := byte_toNat_lt i.opcode
    rw [hadv, pc_add_opcodeLength_toNat hpc]
    omega
  · have := regWord_toNat_lt (t.reg j)
    rw [hj, zext9_toNat]
    omega

theorem Completes.mem_wf {i : Instr} {s t : State} (h : Completes s i t) (hm : s.mem.wf = true) : t.mem.wf = true := by
  rcases h.mem_cases with e | ⟨-, hsp, v, e⟩
  · rwa [e]
  · rw [e]
    exact Memory.write_wf _ _ v hm (byte_toNat_lt_memSize (State.pushAddr_ne hsp))

/-- A step of a running machine without a fault takes the first fault, or, where there is none, completes the fetched
instruction. -/
theorem step_faults_or_completes {s t : State} (hrun : s.run = true) (hclear : s.fault = none)
    (hstep : step s = .next t) :
    (∃ f, s.firstFault = some f ∧ t = takeFault f s) ∨
      (t.fault = none ∧ ∃ i, s.fetchInstr = .ok i ∧ exec i s = .next t ∧ Completes s i t) := by
  obtain ⟨u, e, hfirst, htaken⟩ := (step_endsWith hrun).latched hclear
  cases e.symm.trans hstep
  cases hf : t.fault with
  | some f => exact .inl ⟨f, hfirst.symm.trans hf, htaken f hf⟩
  | none =>
    obtain ⟨i, hi, hexec⟩ := step_unfaulted hrun hstep hf
    rcases completes_or_faults hexec with hc | ⟨f, rfl⟩
    · exact .inr ⟨rfl, i, hi, hexec, hc⟩
    · cases hf

/-- Settles O30: a step takes the first fault, whose info is in range from a `pc` of at most 258, and changes nothing else
but `RUN`, or it completes an instruction fetched inside memory. -/
theorem stepKeepsTheInvariant : Obligations.StepKeepsTheInvariant := by
  intro s t hinv hstep
  cases hrun : s.run with
  | false => exact Host.Outcome.next.inj ((step_stopped hrun).symm.trans hstep) ▸ hinv
  | true =>
    rcases step_faults_or_completes hrun (hinv.run_fault hrun) hstep with ⟨f, hfirst, rfl⟩ | ⟨hf, i, hi, hexec, hc⟩
    · have hlegal := State.firstFault_legal hinv.pc_le hfirst
      exact ⟨hinv.mem_wf, hinv.pc_le, nofun, fun g hg => Option.some.inj hg ▸ hlegal⟩
    · obtain ⟨hwf, hpc, -⟩ := State.opcode_of_fetchInstr hi
      exact ⟨hc.mem_wf hinv.mem_wf, exec_pc_lt hwf hpc hexec hf, fun _ => hf, fun f h => by cases hf.symm.trans h⟩

end Sys2Proof.Machine
end

section
/-! The invariant under the host's operations, the canonical form of memory, and reset (10_state.md sections 3, 6 and 9;
50_host_interface.md section 1; log entry 3). -/

namespace Sys2Proof.Machine

theorem State.resetWith_inv (memInit : Vector Byte Config.memSize) : (State.resetWith memInit).Inv :=
  ⟨Memory.ofImage_wf memInit.toList, Nat.zero_lt_succ _, nofun, nofun⟩

/-- Settles O32: an image writes a canonical memory, and the other fields are constants. -/
theorem resetMeetsTheInvariant : Obligations.ResetMeetsTheInvariant :=
  ⟨⟨State.reset_mem_wf, Nat.zero_lt_succ _, nofun, nofun⟩, State.resetWith_inv⟩

theorem whenStopped_next {s : State} {r : HostResult} {x : State × HostAnswer} (h : whenStopped s r = .next x) :
    r = .next x := by
  unfold whenStopped at h
  split at h
  · cases h
  · exact h

/-- Everything an accepted host operation can do: reset, writes of memory inside its bounds, a start of a machine
without a fault, or nothing. -/
theorem hostStep_cases {op : HostOp} {s t : State} {a : HostAnswer} (h : hostStep op s = .next (t, a)) :
    (∃ memInit, t = State.resetWith memInit) ∨ (∃ m, (s.mem.wf = true → m.wf = true) ∧ t = s.setMem m) ∨
      (s.fault = none ∧ t = s.setRun true) ∨ t = s := by
  cases op with
  | reset memInit =>
    cases h
    exact .inl ⟨memInit, rfl⟩
  | load program =>
    have h := whenStopped_next h
    unfold hostLoad at h
    split_ifs at h
    cases h
    exact .inr (.inl ⟨_, Memory.writeBytes_wf _ _ _, rfl⟩)
  | ramWrite x v =>
    have h := whenStopped_next h
    unfold hostRamWrite at h
    split_ifs at h with hx
    cases h
    exact .inr (.inl ⟨_, fun hm => Memory.write_wf _ _ _ hm hx, rfl⟩)
  | ramRead x =>
    have h := whenStopped_next h
    unfold hostRamRead at h
    split_ifs at h
    cases h
    exact .inr (.inr (.inr rfl))
  | run =>
    have h := whenStopped_next h
    unfold hostRun at h
    split at h <;> cases h
    · exact .inr (.inr (.inl ⟨‹_›, rfl⟩))
    · exact .inr (.inr (.inr rfl))
  | observe =>
    cases whenStopped_next h
    exact .inr (.inr (.inr rfl))

/-- Settles O31: each of the four things a host operation can do keeps the invariant. -/
theorem hostOperationsKeepTheInvariant : Obligations.HostOperationsKeepTheInvariant := by
  intro op s t a hinv h
  rcases hostStep_cases h with ⟨memInit, rfl⟩ | ⟨m, hm, rfl⟩ | ⟨hf, rfl⟩ | rfl
  · exact State.resetWith_inv memInit
  · exact ⟨hm hinv.mem_wf, hinv.pc_le, hinv.run_fault, hinv.fault_legal⟩
  · exact ⟨hinv.mem_wf, hinv.pc_le, fun _ => hf, hinv.fault_legal⟩
  · exact hinv

/-! ### The canonical form -/

theorem Memory.wfFrom_cons {lo k : Nat} {v : Byte} {rest : Memory} : Memory.wfFrom lo ((k, v) :: rest) = true ↔
    lo ≤ k ∧ k < Config.memSize ∧ v ≠ memFill ∧ Memory.wfFrom (k + 1) rest = true := by
  simp [Memory.wfFrom, and_assoc]

theorem Memory.read_head (k : Nat) (v : Byte) (rest : Memory) : Memory.read ((k, v) :: rest) k = v := if_pos rfl

theorem Memory.read_tail {k a : Nat} (v : Byte) (rest : Memory) (h : a ≠ k) :
    Memory.read ((k, v) :: rest) a = Memory.read rest a := if_neg h

/-- The first listed cell is the first address that does not read as the fill, so two canonical memories that read alike
begin with the same cell. -/
theorem Memory.head_le_of_read_eq {lo lo' k k' : Nat} {v v' : Byte} {rest rest' : Memory}
    (hm : Memory.wfFrom lo ((k, v) :: rest) = true) (hn : Memory.wfFrom lo' ((k', v') :: rest') = true)
    (h : ∀ a, Memory.read ((k, v) :: rest) a = Memory.read ((k', v') :: rest') a) : k' ≤ k := by
  obtain ⟨-, -, hv, -⟩ := Memory.wfFrom_cons.mp hm
  obtain ⟨-, hk', hv', hrest'⟩ := Memory.wfFrom_cons.mp hn
  by_contra hlt
  have hn' : Memory.wfFrom k' ((k', v') :: rest') = true := Memory.wfFrom_cons.mpr ⟨Nat.le_refl k', hk', hv', hrest'⟩
  have hfill := Memory.read_below _ k' k hn' (Nat.lt_of_not_le hlt)
  exact hv ((Memory.read_head k v rest).symm.trans ((h k).trans hfill))

theorem Memory.eq_of_read_eq {m n : Memory} {lo lo' : Nat} (hm : Memory.wfFrom lo m = true)
    (hn : Memory.wfFrom lo' n = true) (h : ∀ a, m.read a = n.read a) : m = n := by
  induction m generalizing n lo lo' with
  | nil =>
    cases n with
    | nil => rfl
    | cons c rest =>
      obtain ⟨-, -, hv, -⟩ := Memory.wfFrom_cons.mp hn
      exact absurd ((h c.1).trans (Memory.read_head ..)).symm hv
  | cons c rest ih =>
    obtain ⟨-, -, hv, hrest⟩ := Memory.wfFrom_cons.mp hm
    cases n with
    | nil => exact absurd ((Memory.read_head ..).symm.trans (h c.1)) hv
    | cons c' rest' =>
      obtain ⟨-, -, hv', hrest'⟩ := Memory.wfFrom_cons.mp hn
      obtain ⟨k, v⟩ := c
      obtain ⟨k', v'⟩ := c'
      obtain rfl : k = k' := Nat.le_antisymm (Memory.head_le_of_read_eq hn hm fun a => (h a).symm)
        (Memory.head_le_of_read_eq hm hn h)
      obtain rfl : v = v' := (Memory.read_head ..).symm.trans ((h k).trans (Memory.read_head ..))
      refine congrArg _ (ih hrest hrest' fun a => ?_)
      by_cases ha : a = k
      · rw [ha, Memory.read_below rest (k + 1) k hrest (Nat.lt_succ_self k),
          Memory.read_below rest' (k + 1) k hrest' (Nat.lt_succ_self k)]
      · rw [← Memory.read_tail v rest ha, h a, Memory.read_tail v rest' ha]

/-- Settles O35: by induction, the two lists begin with the same cell and their rests read alike. -/
theorem canonicalMemoriesThatReadAlikeAreEqual : Obligations.CanonicalMemoriesThatReadAlikeAreEqual :=
  fun _ _ hm hn h => Memory.eq_of_read_eq hm hn h

/-- An image of zeros is the empty memory: both are canonical and read as 0 at every address. -/
theorem State.resetWith_zeros {memInit : Vector Byte Config.memSize}
    (h : ∀ a (ha : a < Config.memSize), memInit[a] = 0) : State.resetWith memInit = State.reset := by
  have hmem : (State.resetWith memInit).mem = [] := by
    refine Memory.eq_of_read_eq (Memory.ofImage_wf memInit.toList) (lo' := 0) rfl fun a => ?_
    by_cases ha : a < Config.memSize
    · exact (State.read_resetWith memInit a ha).trans (h a ha)
    · exact Memory.read_past _ 0 a (Memory.ofImage_wf memInit.toList) (Nat.le_of_not_lt ha)
  exact congrArg State.reset.setMem hmem

/-- Settles O34: every element of the replicated vector is 0. -/
theorem resetIsTheResetWithZeroMemory : Obligations.ResetIsTheResetWithZeroMemory :=
  State.resetWith_zeros fun _ ha => Vector.getElem_replicate ha

end Sys2Proof.Machine
end

section
/-! What a step can write: `RUN`, the flags, memory and the registers, each by the instructions the rules name
(10_state.md sections 2, 4 and 6; 20_memory.md section 1; 50_host_interface.md sections 1 and 3). -/

namespace Sys2Proof.Machine

/-! ### The end of a run -/

/-- Settles O28: a step takes the first fault, or completes the fetched instruction, and only `HLT` clears `RUN`. -/
theorem runEndsOnlyByHltOrFault : Obligations.RunEndsOnlyByHltOrFault := by
  intro s t hrun hclear hstep hstop
  rcases step_faults_or_completes hrun hclear hstep with ⟨f, hfirst, rfl⟩ | ⟨hf, i, hi, hexec, hc⟩
  · exact .inr ⟨f, faultTaken_takeFault f s, hfirst⟩
  · obtain ⟨-, -, hopc⟩ := State.opcode_of_fetchInstr hi
    rcases hc.run_cases with rfl | hsame
    · cases hexec
      exact .inl ⟨hopc, rfl, rfl, hf⟩
    · cases (hsame.trans hrun).symm.trans hstop

/-- `RUN = 1` only without a fault (R132). -/
def State.RunsUnfaulted (s : State) : Prop := s.run = true → s.fault = none

theorem State.RunsUnfaulted.step {s t : State} (hs : s.RunsUnfaulted) (hstep : step s = .next t) : t.RunsUnfaulted := by
  rcases step_next_cases hstep with ⟨-, rfl⟩ | ⟨f, rfl⟩ | ⟨hrun, i, -, hc⟩
  · exact hs
  · exact nofun
  · exact fun _ => hc.fault_eq.trans (hs hrun)

/-- Settles O50: the host's `run` by the state of the latch; from its start every step keeps `State.RunsUnfaulted`,
and a step of a stopped machine leads nowhere else. -/
theorem runStartsOnlyAnUnfaultedMachine : Obligations.RunStartsOnlyAnUnfaultedMachine := by
  refine fun s => ⟨fun hstop hclear => ⟨hostStep_run_unfaulted hstop hclear, fun k t hk => ⟨?_, fun hstop' => ?_⟩⟩,
    fun hstop hf => ?_, fun hrun => whenStopped_running hrun _⟩
  · have hstart : (s.setRun true).RunsUnfaulted := fun _ => hclear
    exact stepsTo_keeps (fun _ _ => State.RunsUnfaulted.step) hstart hk
  · exact stepsTo_succ_of_step hk (step_stopped hstop')
  · exact hostStep_run_faulted ⟨hstop, Option.ne_none_iff_exists'.mp hf⟩

/-! ### The flags -/

/-- Every flag that is set in `f` is set in `g`. -/
def Flags.Kept (f g : Flags) : Prop :=
  (f.lt = true → g.lt = true) ∧ (f.gt = true → g.gt = true) ∧ (f.eq = true → g.eq = true)

theorem Flags.Kept.refl (f : Flags) : f.Kept f := ⟨id, id, id⟩

/-- Each of the comparison's three answers sets a flag and clears none (R93). -/
theorem Flags.kept_compareFlags (a b : RegWord) (f : Flags) : f.Kept (compareFlags a b f) := by
  unfold compareFlags
  split_ifs
  · exact ⟨id, id, fun _ => rfl⟩
  · exact ⟨fun _ => rfl, id, id⟩
  · exact ⟨id, fun _ => rfl, id⟩

theorem step_keeps_flags {s t : State} (hstep : step s = .next t) :
    s.flags.Kept t.flags ∧ (s.mem.read s.pc.toNat ≠ 0xA7#8 → t.flags = s.flags) := by
  rcases step_next_cases hstep with ⟨-, rfl⟩ | ⟨f, rfl⟩ | ⟨-, i, hi, hc⟩
  · exact ⟨.refl _, fun _ => rfl⟩
  · exact ⟨.refl _, fun _ => rfl⟩
  · obtain ⟨-, -, hopc⟩ := State.opcode_of_fetchInstr hi
    rcases hc.flags_cases with e | ⟨hcmp, a, b, e⟩
    · exact ⟨e ▸ .refl _, fun _ => e⟩
    · exact ⟨e ▸ Flags.kept_compareFlags a b _, fun hne => absurd (hopc.trans hcmp) hne⟩

/-- Settles O36: `step_keeps_flags`, a conjunct per flag. -/
theorem flagsAreStickyAndOnlyCmpWritesThem : Obligations.FlagsAreStickyAndOnlyCmpWritesThem := by
  refine ⟨rfl, fun s t hstep => ?_⟩
  obtain ⟨⟨hlt, hgt, heq⟩, hother⟩ := step_keeps_flags hstep
  exact ⟨hlt, hgt, heq, hother⟩

/-- Settles O48: EQ is still set after the steps, so `JEQ` jumps and `JNE` falls through. -/
theorem onceEqualNoJneIsTaken : Obligations.OnceEqualNoJneIsTaken := by
  intro k s t r hr hq hk
  have hq' : t.flags.eq = true := by
    refine stepsTo_keeps (P := fun s => s.flags.eq = true) (fun s t hs hstep => ?_) hq hk
    obtain ⟨⟨-, -, heq⟩, -⟩ := step_keeps_flags hstep
    exact heq hs
  obtain ⟨-, hjeq⟩ := jeqJumpsWhenEqIsSet r
  obtain ⟨-, hjne⟩ := jneJumpsWhenEqIsClear r
  obtain ⟨u, hu, htaken, -⟩ := (hjeq t).1 hr
  obtain ⟨w, hw, -, hfalls, -⟩ := (hjne t).1 hr
  exact ⟨u, w, hu, htaken hq', hw, hfalls hq'⟩

/-! ### Memory and the registers -/

/-- Settles O39: a step that changes a byte completed a `PUSH` or a `CALL`, whose write changes one cell. -/
theorem onlyPushAndCallWriteMemory : Obligations.OnlyPushAndCallWriteMemory := by
  intro s t a hwf hstep hne
  rcases step_next_cases hstep with ⟨-, rfl⟩ | ⟨f, rfl⟩ | ⟨-, i, hi, hc⟩
  · exact absurd rfl hne
  · exact absurd rfl hne
  · obtain ⟨-, -, hopc⟩ := State.opcode_of_fetchInstr hi
    rcases hc.mem_cases with e | ⟨hset, -, v, e⟩
    · exact absurd (congrArg (Memory.read · a) e) hne
    · refine ⟨hopc ▸ hset, ?_⟩
      by_contra ha
      exact hne (e ▸ Memory.read_write_other s.mem _ a v hwf ha)

/-- An operand byte that does not name `j` is not `j`'s number. -/
theorem ne_of_namesReg {op : Byte} {j : Fin Config.nregs} (hop : op.toNat < 8) (h : namesReg op j = false) :
    j ≠ ⟨op.toNat, hop⟩ := by
  rintro rfl
  simp [namesReg] at h

/-- A completed instruction writes registers of the "writes" column alone (R12). -/
theorem Completes.reg_eq {i : Instr} {s t : State} {j : Fin Config.nregs} (h : Completes s i t)
    (hj : writesReg i j = false) : t.reg j = s.reg j := by
  cases h with
  | ldi h => simp [ne_of_namesReg h hj]
  | mul h1 => simp [ne_of_namesReg h1 hj]
  | push => simp_all [writesReg]
  | pop h =>
    obtain ⟨hop, h7⟩ := Bool.or_eq_false_iff.mp hj
    exact reg_pop_other s (ne_of_namesReg h hop) (by simpa using h7) _
  | call => simp_all [writesReg]
  | ret =>
    obtain ⟨h0, h7⟩ := Bool.or_eq_false_iff.mp hj
    exact reg_pop_other s (by simpa using h0) (by simpa using h7) _
  | _ => rfl

/-- Settles O40: a fault writes no register, and a completed instruction those of its row. -/
theorem registersOutsideTheTableAreUnchanged : Obligations.RegistersOutsideTheTableAreUnchanged := by
  intro i s t j hexec hj
  rcases completes_or_faults hexec with hc | ⟨f, rfl⟩
  · exact hc.reg_eq hj
  · rfl

/-! ### A jump to itself -/

/-- Settles O29: the target is `pc` itself, so a step answers the state it began in. -/
theorem jumpToItselfRunsForever : Obligations.JumpToItselfRunsForever := by
  intro s op1 h hrun hholds hself k
  have hstep : step s = exec (.jmp op1) s := stepExecutesTheEncodedInstruction s (.jmp op1) hrun rfl hholds
  have hjump : s.jump (s.reg ⟨op1.toNat, h⟩) = s :=
    congrArg s.setPc (BitVec.eq_of_toNat_eq ((zext9_toNat _).trans hself))
  rcases exec_jmp_cases op1 s with ⟨_, e⟩ | ⟨hill, -⟩
  · rw [e, hjump] at hstep
    exact ⟨s, stepsTo_self hstep k, rfl, hrun⟩
  · omega

end Sys2Proof.Machine
end

section
/-! Two instructions together (20_memory.md section 4; 41_data_compare.md sections 2 and 3; 42_stack.md section 4;
43_control_flow.md section 7), read off what the statement about each of the two says. -/

namespace Sys2Proof.Machine

/-! ### A stored byte is fetched (R40) -/

theorem Memory.getElem?_bytesFrom (m : Memory) {a k n : Nat} (hk : k < n) (ha : a + k < 255) :
    (m.bytesFrom a n)[k]? = some (m.read (a + k)) := by
  induction n generalizing a k with
  | zero => omega
  | succ n ih =>
    rw [Memory.bytesFrom_succ, if_pos (show a < 255 by omega)]
    cases k with
    | zero => rfl
    | succ k => rw [List.getElem?_cons_succ, ih (by omega) (by omega), Nat.add_right_comm, Nat.add_assoc]

/-- The three kinds of fetch all read the one memory. -/
theorem State.fetchesAt_of_read {s : State} {a : Nat} {v : Byte} (ha : a < 255) (hv : s.mem.read a = v) :
    s.FetchesAt a v := by
  subst hv
  refine ⟨fun k hk e => ?_, fun e => ?_, fun k e => ?_⟩ <;> subst e
  · exact Memory.getElem?_bytesFrom s.mem hk ha
  · exact if_pos ha
  · exact if_pos ha

/-- Settles O41: the stored byte of `PUSH` and of `CALL` is in memory, inside its bounds, so every fetch finds it. -/
theorem storedByteIsFetchedNext : Obligations.StoredByteIsFetchedNext := by
  intro s op1 h hwf hsp
  have hinside : s.pushAddr.toNat < 255 := byte_toNat_lt_memSize (State.pushAddr_ne hsp)
  constructor
  · obtain ⟨-, hpush⟩ := pushStoresBelowTheStackPointer op1
    obtain ⟨t, e, -, -, hcell, -⟩ := (hpush s hwf).1 h hsp
    exact ⟨t, e, State.fetchesAt_of_read hinside hcell⟩
  · intro hpc
    obtain ⟨-, hcall⟩ := callPushesTheReturnAddress op1
    obtain ⟨t, e, -, -, hcell, htarget, -⟩ := (hcall s hwf).1 h hsp
    exact ⟨t, _, e, hcell hpc, State.fetchesAt_of_read hinside rfl, fun h7 => htarget.trans (by simp [h7])⟩

/-! ### `LDI`, then `PRN` -/

theorem Memory.holds_append {m : Memory} {a : Nat} {bytes rest : List Byte} :
    m.Holds a (bytes ++ rest) ↔ m.Holds a bytes ∧ m.Holds (a + bytes.length) rest := by
  induction bytes generalizing a with
  | nil => simp [Memory.holds_nil]
  | cons b bytes ih =>
    simp only [List.cons_append, Memory.holds_cons, ih, List.length_cons, and_assoc, Nat.add_right_comm a _ 1,
      ← Nat.add_assoc]

/-- Where bytes stand depends on what memory reads as, not on how it is held. -/
theorem Memory.holds_congr {m n : Memory} (h : ∀ a, n.read a = m.read a) {a : Nat} {bytes : List Byte}
    (hm : m.Holds a bytes) : n.Holds a bytes := by
  induction bytes generalizing a with
  | nil => exact Memory.holds_nil n a
  | cons b bytes ih =>
    obtain ⟨ha, hb, hrest⟩ := (Memory.holds_cons ..).mp hm
    exact (Memory.holds_cons ..).mpr ⟨ha, (h a).trans hb, ih hrest⟩

/-- An addition that stays inside the range of `pc` does not wrap. -/
theorem pc_add_toNat {pc : PcWord} {n : Nat} (h : pc.toNat + n < 512) :
    (pc + BitVec.ofNat Config.pcBits n).toNat = pc.toNat + n := by
  simp only [BitVec.toNat_add, BitVec.toNat_ofNat, Config.pcBits]
  omega

/-- Settles O42: the two encodings stand one after the other, and `PRN` emits the register that `LDI` wrote. -/
theorem ldiThenPrnOutputsTheValue : Obligations.LdiThenPrnOutputsTheValue := by
  intro s r v hr hrun hholds
  have hend : s.pc.toNat + 4 < 255 := Memory.end_le_of_holds hholds
  obtain ⟨hldi, hprn⟩ := Memory.holds_append (bytes := encode (.ldi r v)) (rest := encode (.prn r)).mp hholds
  obtain ⟨-, hldiSpec⟩ := ldiLoadsTheImmediate r v
  obtain ⟨t, et, hreg, -, hpc, hmem, -, hout, hrun', -⟩ := (hldiSpec s).1 hr
  obtain ⟨-, hprnSpec⟩ := prnAppendsTheRegister r
  obtain ⟨u, eu, hout', -, hpc', hmem', -, hrun'', -⟩ := (hprnSpec t).1 hr
  have hpcNum : t.pc.toNat = s.pc.toNat + 3 := (congrArg BitVec.toNat hpc).trans (pc_add_toNat (n := 3) (by omega))
  have hpcNum' : u.pc.toNat = t.pc.toNat + 2 := (congrArg BitVec.toNat hpc').trans (pc_add_toNat (n := 2) (by omega))
  have hstep : step s = .next t := (stepExecutesTheEncodedInstruction s _ hrun rfl hldi).trans et
  have hstep' : step t = .next u :=
    (stepExecutesTheEncodedInstruction t _ (hrun'.trans hrun) rfl (Memory.holds_congr hmem (hpcNum ▸ hprn))).trans eu
  refine ⟨u, ?_, ?_, by rw [hpcNum', hpcNum], (hrun''.trans hrun').trans hrun, fun a => (hmem' a).trans (hmem a)⟩
  · exact stepsTo_succ_of_step (stepsTo_succ_of_step ((stepsTo_zero s s).mpr rfl) hstep) hstep'
  · rw [hout', hout, hreg]

/-! ### `MUL` in both orders -/

/-- Settles O43: both orders leave the product of the same two registers. -/
theorem mulIsCommutativeOnStoredValues : Obligations.MulIsCommutativeOnStoredValues := by
  intro s a b ha hb
  obtain ⟨-, hab⟩ := mulKeepsTheLowByteOfTheProduct a b
  obtain ⟨-, hba⟩ := mulKeepsTheLowByteOfTheProduct b a
  obtain ⟨t, et, ht, -⟩ := (hab s).1 ha hb
  obtain ⟨u, eu, hu, -⟩ := (hba s).1 hb ha
  exact ⟨t, u, et, eu, BitVec.eq_of_toNat_eq (by rw [ht, hu, Nat.mul_comm])⟩

/-! ### The stack -/

theorem SameControl.trans {s t u : State} (h : SameControl s t) (h' : SameControl t u) : SameControl s u :=
  ⟨h'.1.trans h.1, h'.2.trans h.2⟩

/-- Settles O44: the pop reads the cell the push stored to, and its increment undoes the push's decrement. -/
theorem pushThenPopMovesTheRegister : Obligations.PushThenPopMovesTheRegister := by
  intro s r1 r2 h1 h2 hwf hsp
  have hne1 : (⟨r1.toNat, Nat.lt_succ_of_lt h1⟩ : Fin 8) ≠ 7 := fun e => Nat.ne_of_lt h1 (congrArg Fin.val e)
  have hne2 : (⟨r2.toNat, Nat.lt_succ_of_lt h2⟩ : Fin 8) ≠ 7 := fun e => Nat.ne_of_lt h2 (congrArg Fin.val e)
  obtain ⟨-, hpush⟩ := pushStoresBelowTheStackPointer r1
  obtain ⟨t, et, hsp', hnum, hcell, -, hregs, -, -, -, hcontrol⟩ := (hpush s hwf).1 (Nat.lt_succ_of_lt h1) hsp
  obtain ⟨-, hpop⟩ := popLoadsTheTopCell r2
  obtain ⟨u, eu, hloaded, -, hregs', -, -, -, -, hcontrol'⟩ :=
    (hpop t).1 (Nat.lt_succ_of_lt h2) (hsp' ▸ State.pushAddr_ne hsp)
  obtain ⟨hr2, hinc⟩ := hloaded hne2
  have h7 : u.reg 7 = s.reg 7 := by
    have hpos := byte_toNat_ne hsp
    refine BitVec.eq_of_toNat_eq ?_
    rw [hinc, hsp', hnum]
    exact Nat.sub_add_cancel (Nat.pos_of_ne_zero hpos)
  refine ⟨t, u, et, eu, ?_, h7, hcontrol.trans hcontrol', fun j hj => ?_⟩
  · rw [hr2, hsp', hcell, if_neg hne1]
  · by_cases hj7 : j = 7
    · rw [hj7, h7]
    · rw [hregs' j (fun e => hj (congrArg Fin.val e)) hj7, hregs j hj7]

/-- Settles O45: R7 is 0 after reset, so a push finds no cell below it and a pop reads the first one. -/
theorem stackFromReset : Obligations.StackFromReset := by
  intro memInit op1 h s
  have h8 : op1.toNat < 8 := Nat.lt_succ_of_lt h
  have hwf : s.mem.wf = true := Memory.ofImage_wf memInit.toList
  have h7 : s.reg 7 = 0#8 := State.reg_resetWith memInit 7
  have htop : s.reg 7 ≠ 255#8 := h7 ▸ by decide
  have hcell : s.mem.read (s.reg 7).toNat = memInit[0] := h7 ▸ State.read_resetWith memInit 0 (Nat.zero_lt_succ _)
  have hone {w : RegWord} (hw : w.toNat = (s.reg 7).toNat + 1) : w = 1 :=
    BitVec.eq_of_toNat_eq (hw.trans (by rw [h7]; rfl))
  have hne : (⟨op1.toNat, h8⟩ : Fin 8) ≠ 7 := fun e => Nat.ne_of_lt h (congrArg Fin.val e)
  obtain ⟨-, hpush⟩ := pushStoresBelowTheStackPointer op1
  obtain ⟨-, hcall⟩ := callPushesTheReturnAddress op1
  obtain ⟨-, hpop⟩ := popLoadsTheTopCell op1
  obtain ⟨-, hret⟩ := retPopsIntoR0AndPc
  obtain ⟨-, hpushFault, -⟩ := hpush s hwf
  obtain ⟨-, hcallFault, -⟩ := hcall s hwf
  obtain ⟨t, et, hloaded, -, -, -, -, -, -, hcontrol⟩ := (hpop s).1 h8 htop
  obtain ⟨hreg, hinc⟩ := hloaded hne
  obtain ⟨u, eu, hr0, hinc', hpc, -, -, -, -, hcontrol'⟩ := (hret s).1 htop
  exact ⟨hpushFault h8 h7, hcallFault h8 h7, ⟨t, et, hreg.trans hcell, hone hinc, hcontrol.2⟩,
    ⟨u, eu, hpc.trans (congrArg _ hcell), hr0.trans hcell, hone hinc', hcontrol'.2⟩⟩

/-! ### `CALL`, then `RET` -/

/-- Settles O46: the `RET` pops the return address the `CALL` stored, and its increment undoes the decrement. -/
theorem retResumesAfterTheCall : Obligations.RetResumesAfterTheCall := by
  intro s t u op1 hwf h hsp hpc hexec hsame hcell
  obtain ⟨-, hcall⟩ := callPushesTheReturnAddress op1
  obtain ⟨t', et, hsp', hnum, hstored, -⟩ := (hcall s hwf).1 h hsp
  cases et.symm.trans hexec
  have htop : u.reg 7 ≠ 255#8 := by
    rw [hsame, hsp']
    exact State.pushAddr_ne hsp
  have hret : (u.mem.read (u.reg 7).toNat).toNat = s.pc.toNat + 2 := by
    rw [hsame, hcell, hsp', hstored hpc]
  obtain ⟨-, hretSpec⟩ := retPopsIntoR0AndPc
  obtain ⟨w, ew, hr0, hinc, hpc', -⟩ := (hretSpec u).1 htop
  refine ⟨w, ew, hpc'.trans hret, BitVec.eq_of_toNat_eq ?_, hr0 ▸ hret⟩
  rw [hinc, hsame, hsp', hnum]
  exact Nat.sub_add_cancel (Nat.pos_of_ne_zero (byte_toNat_ne hsp))

/-! ### `CMP`, then a conditional jump -/

/-- Settles O47: equal values leave EQ set; unequal ones set LT or GT and leave EQ as it was. -/
theorem cmpDecidesTheConditionalJump : Obligations.CmpDecidesTheConditionalJump := by
  intro s a b r ha hb hr
  obtain ⟨-, hcmp⟩ := cmpSetsOneFlagAndClearsNone a b
  obtain ⟨t, et, heq, hlt, hgt, hregs, -⟩ := (hcmp s).1 ha hb
  obtain ⟨-, hjeq⟩ := jeqJumpsWhenEqIsSet r
  obtain ⟨-, hjne⟩ := jneJumpsWhenEqIsClear r
  obtain ⟨u, eu, htaken, -⟩ := (hjeq t).1 hr
  obtain ⟨w, ew, htaken', -⟩ := (hjne t).1 hr
  refine ⟨t, et, fun hab => ?_, fun hab hclear => ?_⟩
  · obtain ⟨hq, -⟩ := heq (congrArg BitVec.toNat hab)
    exact ⟨u, eu, hregs _ ▸ htaken hq⟩
  · have hq : t.flags.eq = s.flags.eq := by
      rcases Nat.lt_or_gt_of_ne (byte_toNat_ne hab) with hrel | hrel
      · obtain ⟨-, -, hkept⟩ := hlt hrel
        exact hkept
      · obtain ⟨-, -, hkept⟩ := hgt hrel
        exact hkept
    exact ⟨w, ew, hregs _ ▸ htaken' (hq.trans hclear)⟩

end Sys2Proof.Machine
end

section
/-! Reset, load, run (70_reset_and_hazards.md section 1). -/

namespace Sys2Proof.Machine

/-- Settles O54: reset gives `MEM_INIT` and the reset values, load the program's bytes, and run sets `RUN` alone. -/
theorem bootRunsFromAddressZero : Obligations.BootRunsFromAddressZero := by
  intro memInit program s0 hlen hval
  have hwf : (State.resetWith memInit).mem.wf = true := Memory.ofImage_wf memInit.toList
  refine ⟨_, _, _, rfl, hostStep_load_fits rfl hlen hval, hostStep_run_unfaulted rfl rfl, rfl, rfl, rfl,
    State.reg_resetWith memInit, rfl, rfl, fun i hi => ?_, fun a ha hpast => ?_, if_pos (Nat.zero_lt_succ _)⟩
  · rw [State.mem_setRun, State.mem_setMem, Memory.read_load_inside hwf hlen hi,
      toNat_ofNat_byte (hval _ (List.getElem_mem hi))]
  · rw [State.mem_setRun, State.mem_setMem, Memory.read_load_past hwf hpast, State.read_resetWith memInit a ha]

end Sys2Proof.Machine
end

section
/-! The document's two-stage loop (40_engine_cycle.md rules R71, R73, R74): the behaviour of an opcode followed by the
generic advance is the meaning of its instruction, and fetching byte by byte finds what the decoder reads. -/

namespace Sys2Proof.Machine

/-! ### The behaviours, one equation per row of the opcode table that reads an operand or the stack -/

section
variable (op1 op2 : Byte) (s : State)

theorem behaviour_ldi : behaviour 0x82#8 op1 op2 s =
    regOperand op1 >>= fun a => pure (s.setReg a (regOfByte op2)) := rfl

theorem behaviour_prn : behaviour 0x47#8 op1 op2 s = regOperand op1 >>= fun a => pure (s.emit (s.reg a)) := rfl

theorem behaviour_mul : behaviour 0xA2#8 op1 op2 s =
    regOperand op1 >>= fun a => regOperand op2 >>= fun b => pure (s.setReg a (s.reg a * s.reg b)) := rfl

/-- The stack pointer's update comes first, as in `State.decSp`. -/
theorem State.push_eq (value : State → Byte) : s.push value = s.decSp.stackWrite s.pushAddr (value s.decSp) :=
  congrArg (s.decSp.stackWrite · (value s.decSp)) (State.reg_decSp s 7)

theorem behaviour_push : behaviour 0x45#8 op1 op2 s =
    regOperand op1 >>= fun a => s.decSp.stackWrite s.pushAddr (byteOfReg (s.decSp.reg a)) :=
  congrArg (regOperand op1 >>= ·) (funext fun a => s.push_eq fun t => byteOfReg (t.reg a))

theorem behaviour_pop : behaviour 0x46#8 op1 op2 s =
    regOperand op1 >>= fun a => s.stackRead s.popAddr >>= fun v => pure (s.setReg a (regOfByte v)).incSp := rfl

theorem behaviour_call : behaviour 0x50#8 op1 op2 s =
    regOperand op1 >>= fun a => s.decSp.stackWrite s.pushAddr s.returnAddr >>= fun t => pure (t.jump (t.reg a)) := by
  have hpush : s.push State.returnAddr = s.decSp.stackWrite s.pushAddr s.returnAddr := s.push_eq State.returnAddr
  rw [← hpush]
  rfl

theorem behaviour_ret : behaviour 0x11#8 op1 op2 s =
    s.stackRead s.popAddr >>= fun v =>
      let t := (s.setReg Config.retReg (regOfByte v)).incSp
      pure (t.jump (t.reg Config.retReg)) := rfl

theorem behaviour_jmp : behaviour 0x54#8 op1 op2 s = regOperand op1 >>= fun a => pure (s.jump (s.reg a)) := rfl

theorem behaviour_jeq : behaviour 0x55#8 op1 op2 s =
    regOperand op1 >>= fun a => pure (if s.flags.eq then s.jump (s.reg a) else s.advance 2) := by
  simp only [ite_jump_advance]
  rfl

theorem behaviour_jne : behaviour 0x56#8 op1 op2 s =
    regOperand op1 >>= fun a => pure (if s.flags.eq then s.advance 2 else s.jump (s.reg a)) := by
  have hbranch (a : Fin Config.nregs) : s.setPc (if !s.flags.eq then zext9 (s.reg a) else s.pc + 2#9) =
      if s.flags.eq then s.advance 2 else s.jump (s.reg a) := by
    cases s.flags.eq <;> rfl
  simp only [← hbranch]
  rfl

/-- The comparison's flags, each "as it was, or its relation holds". -/
theorem compareFlags_eq_or (a b : RegWord) (f : Flags) : compareFlags a b f =
    { lt := f.lt || decide (a.toNat < b.toNat), gt := f.gt || decide (b.toNat < a.toNat),
      eq := f.eq || decide (a.toNat = b.toNat) } := by
  rcases Nat.lt_trichotomy a.toNat b.toNat with h | h | h
  · simp [compareFlags_of_lt h, h, h.ne, h.le]
  · simp [compareFlags_of_eq h, h]
  · simp [compareFlags_of_gt h, h, h.ne', h.le]

theorem behaviour_cmp : behaviour 0xA7#8 op1 op2 s =
    regOperand op1 >>= fun a => regOperand op2 >>= fun b =>
      pure (s.setFlags (compareFlags (s.reg a) (s.reg b) s.flags)) := by
  simp only [compareFlags_eq_or]
  rfl

end

/-! ### Behaviour and advance are the instruction -/

/-- The second half of an iteration: the behaviour, then the generic advance unless the opcode is a PC-setter. -/
def State.effect (s : State) (opc op1 op2 : Byte) : Attempt State := do
  let t ← behaviour opc op1 op2 s
  pure (if isPcSetter opc then t else t.advance (opcodeLength opc))

/-- R74, second half: the two stages together are the meaning of the instruction. -/
theorem exec_eq_conclude_effect {i : Instr} (s : State) {op1 op2 : Byte} (hwf : i.wf = true)
    (hk : isKnown i.opcode = true) (h1 : ∀ b, i.operands[0]? = some b → op1 = b)
    (h2 : ∀ b, i.operands[1]? = some b → op2 = b) : exec i s = conclude s (s.effect i.opcode op1 op2) := by
  cases i with
  | hlt => rfl
  | ldi a b =>
    cases h1 a rfl
    cases h2 b rfl
    simp only [State.effect, Instr.opcode, behaviour_ldi, bind_assoc]
    rfl
  | prn a =>
    cases h1 a rfl
    simp only [State.effect, Instr.opcode, behaviour_prn, bind_assoc]
    rfl
  | mul a b =>
    cases h1 a rfl
    cases h2 b rfl
    simp only [State.effect, Instr.opcode, behaviour_mul, bind_assoc]
    rfl
  | push a =>
    cases h1 a rfl
    simp only [State.effect, Instr.opcode, behaviour_push, bind_assoc]
    rfl
  | pop a =>
    cases h1 a rfl
    simp only [State.effect, Instr.opcode, behaviour_pop, bind_assoc]
    rfl
  | call a =>
    cases h1 a rfl
    simp only [State.effect, Instr.opcode, behaviour_call, bind_assoc]
    rfl
  | ret =>
    simp only [State.effect, Instr.opcode, behaviour_ret, bind_assoc]
    rfl
  | jmp a =>
    cases h1 a rfl
    simp only [State.effect, Instr.opcode, behaviour_jmp, bind_assoc]
    rfl
  | jeq a =>
    cases h1 a rfl
    simp only [State.effect, Instr.opcode, behaviour_jeq, bind_assoc]
    rfl
  | jne a =>
    cases h1 a rfl
    simp only [State.effect, Instr.opcode, behaviour_jne, bind_assoc]
    rfl
  | cmp a b =>
    cases h1 a rfl
    cases h2 b rfl
    simp only [State.effect, Instr.opcode, behaviour_cmp, bind_assoc]
    rfl
  | unknown opc =>
    have hunknown : isKnown opc = false := by simpa [Instr.wf] using hwf
    cases hk.symm.trans hunknown

/-! ### Fetching byte by byte -/

/-- What fetching operand `k` of a whole instruction gives: the byte in memory, or a byte no behaviour uses. -/
def State.operandByte (s : State) (opc : Byte) (k : Nat) : Byte :=
  if k < opcodeLength opc then s.mem.read (s.pc.toNat + k) else 0

theorem State.fetchOpcode_inside {s : State} (h : s.pc.toNat < 255) : s.fetchOpcode = .ok (s.mem.read s.pc.toNat) :=
  if_pos h

theorem State.operandIf_inside {s : State} {opc : Byte} {k : Nat} (h : k ≤ opc.toNat / 64 → s.pc.toNat + k < 255) :
    s.operandIf opc k = .ok (s.operandByte opc k) := by
  unfold State.operandIf State.operandByte
  split
  · next hk =>
    rw [opcodeLength_eq] at hk
    exact if_pos (h (Nat.le_of_lt_succ hk))
  · rfl

theorem State.operandIf_past {s : State} {opc : Byte} {k : Nat} (hk : k ≤ opc.toNat / 64) (h : 255 ≤ s.pc.toNat + k) :
    s.operandIf opc k = .error { code := .operandBounds, info := s.pc.toNat + k } := by
  have hlen : k < opcodeLength opc := by
    rw [opcodeLength_eq]
    omega
  exact (if_pos hlen).trans (if_neg (Nat.not_lt.mpr h))

/-! ### The iteration -/

theorem State.iteration_past {s : State} (h : 255 ≤ s.pc.toNat) :
    s.iteration = .error { code := .fetchBounds, info := s.pc.toNat } := by
  simp [State.iteration, State.fetchOpcode, Nat.not_lt.mpr h]

section
variable {s : State} (hpc : s.pc.toNat < 255)
include hpc

theorem State.iteration_unknown (hk : isKnown (s.mem.read s.pc.toNat) = false) :
    s.iteration = .ok (s.advance (opcodeLength (s.mem.read s.pc.toNat))) := by
  have hset : isPcSetter (s.mem.read s.pc.toNat) = false :=
    Bool.eq_false_iff.mpr fun h => by cases (isKnown_of_isPcSetter h).symm.trans hk
  rw [State.iteration, State.fetchOpcode_inside hpc, Attempt.ok_bind, hk, hset]
  rfl

theorem State.iteration_known (hk : isKnown (s.mem.read s.pc.toNat) = true) :
    s.iteration = s.operandIf (s.mem.read s.pc.toNat) 1 >>= fun op1 =>
      s.operandIf (s.mem.read s.pc.toNat) 2 >>= fun op2 => s.effect (s.mem.read s.pc.toNat) op1 op2 := by
  rw [State.iteration, State.fetchOpcode_inside hpc, Attempt.ok_bind, if_pos hk]
  rfl

end

/-- A fetch that fails fails in the loop too, at the same byte. -/
theorem State.iteration_of_fetchFault {s : State} {f : FaultRecord} (h : s.fetchInstr = .error f) :
    s.iteration = .error f := by
  by_cases hpc : s.pc.toNat < 255
  · have hbytes := Memory.length_bytesFrom s.mem (s.pc.toNat + 1) 3
    rcases s.fetchInstr_cases with ⟨i, rest, -, e⟩ | ⟨hd, -⟩ | ⟨hd, e⟩ | ⟨hd, e⟩
    · cases e.symm.trans h
    · obtain ⟨-, hlacks⟩ := State.lacks_of_decode_error hpc hd
      exact hlacks.elim
    · cases e.symm.trans h
      obtain ⟨hk, hlen, hnone⟩ := State.lacks_of_decode_error hpc hd
      rw [hnone, Config.memSize] at hbytes
      rw [State.iteration_known hpc hk, State.operandIf_past hlen (by omega), Attempt.error_bind]
    · cases e.symm.trans h
      obtain ⟨hk, hlen, hone⟩ := State.lacks_of_decode_error hpc hd
      rw [hone, Config.memSize] at hbytes
      rw [State.iteration_known hpc hk, State.operandIf_inside (fun _ => by omega), Attempt.ok_bind,
        State.operandIf_past hlen (by omega), Attempt.error_bind]
  · have hpast := Nat.le_of_not_lt hpc
    cases (State.fetchInstr_past hpast).symm.trans h
    exact State.iteration_past hpast

theorem State.iteration_of_fetchInstr {s : State} {i : Instr} (h : s.fetchInstr = .ok i) :
    exec i s = conclude s s.iteration := by
  obtain ⟨hwf, hpc, hopc⟩ := State.opcode_of_fetchInstr h
  have hholds := State.holds_of_fetchInstr h
  cases hk : isKnown i.opcode with
  | false =>
    cases i with
    | unknown opc =>
      rw [State.iteration_unknown hpc (hopc ▸ hk), hopc]
      rfl
    | _ => cases hk
  | true =>
    have hend := Memory.end_le_of_holds hholds
    have hcount := length_operands_of_known hwf hk
    have hbyte {k : Nat} {b : Byte} (hb : i.operands[k]? = some b) : s.operandByte i.opcode (k + 1) = b := by
      obtain ⟨hlt, -⟩ := List.getElem?_eq_some_iff.mp hb
      refine (if_pos ?_).trans (Memory.read_of_holds (k := k + 1) hholds hb)
      rw [opcodeLength_eq]
      omega
    rw [State.iteration_known hpc (hopc ▸ hk), hopc, State.operandIf_inside (fun _ => by omega), Attempt.ok_bind,
      State.operandIf_inside (fun _ => by omega), Attempt.ok_bind]
    exact exec_eq_conclude_effect s hwf hk (fun _ => hbyte) (fun _ => hbyte)

/-- The loop's step takes the fault that its iteration raises. -/
theorem State.loopStep_running {s : State} (hrun : s.run = true) : .next s.loopStep = conclude s s.iteration := by
  unfold State.loopStep
  rw [if_pos hrun]
  cases s.iteration <;> rfl

/-- Settles O21: a stopped machine stays as it is in both forms; where the fetch fails, so does the iteration; where it
succeeds, the iteration is the instruction. -/
theorem stepIsTheDocumentsLoop : Obligations.StepIsTheDocumentsLoop := by
  intro s
  rcases step_cases s with ⟨hrun, e⟩ | ⟨hrun, f, hf, e⟩ | ⟨hrun, i, hi, e⟩
  · rw [e, State.loopStep, if_neg (by simp [hrun])]
  · rw [e, State.loopStep_running hrun, State.iteration_of_fetchFault hf, conclude_error]
  · rw [e, State.loopStep_running hrun, State.iteration_of_fetchInstr hi]

end Sys2Proof.Machine
end
